-- ==== Sys2Proof/Word.lean ====
section
/-! DEFINITION. The widths of the block (spec 00_scope.md R7): the command word, the stream item, the LFSR
register. Every value is an unsigned bit vector numbered LSB-0 (R8); one bit is a `Bool`. -/

namespace Sys2Proof

/-- A command word `CMD[15:0]` (`CMD_WIDTH` = 16, R7, R60). -/
abbrev Word := BitVec 16

/-- A stream item, and the response `RESP[7:0]` (`ITEM_WIDTH` = `RESP_WIDTH` = 8, R7, R60). -/
abbrev Byte := BitVec 8

/-- The LFSR register's value (`REG_WIDTH` = 7, R7, R21): every 7-bit value is legal. `REG[0]` is the bit shifted
in most recently, `REG[6]` the oldest (R9, R22). -/
abbrev Reg := BitVec 7

end Sys2Proof
end

