-- ==== Sys2Proof/Config.lean ====
section
/-! DEFINITION. The configuration parameters of R7 that are choices, not widths: the bit order (R42, R111, R112),
the default seed the source leaves open (R121), and the identity string (R3). They are parameters of the machine, not
state (R20). -/

namespace Sys2Proof

/-- The order in which a byte's bits pass the engine (R7). -/
inductive BitOrder where
  /-- This hardware's order (R42, R101, R102). -/
  | msbFirst
  /-- The named alternative of R112, NOT this hardware's; kept so that the source's section 8 vector can be reproduced. -/
  | lsbFirst
  deriving DecidableEq, Repr

/-- `BIT_ORDER`, fixed to `MSB_FIRST` for this hardware (R7, R111). -/
def Config.bitOrder : BitOrder := .msbFirst

/-- `DEFAULT_SEED`: OPEN, some value in 0..127 (R7, R121). No body: nothing can be proved of its value, so a claim that
uses it holds for every value, as R121 asks (DESIGN CHOICE, log 9). -/
opaque Config.defaultSeed : Reg

/-- The identity string of R3; no version is claimed. -/
def Config.identity : String := "LukeZeller/802_11b_COMP_635 LFSR-7 CORE"

end Sys2Proof
end

