-- ==== Sys2Proof/Syntax.lean ====
section
/-! DEFINITION. The commands of the block, one constructor per row of spec/opcode_table.json (R61, R70), and the source
commands an assembler line writes (R71, R72), whose operands are numbers still to be range-checked. -/

namespace Sys2Proof

/-- The instance's mode (R12, R23): which bit drives the feedback. Its encoding (0 is Scramble) is `Mode.toBit` in
Decode.lean. -/
inductive Mode where
  | scramble
  | descramble
  deriving DecidableEq, Repr

/-- The commands (R61). Every operand is taken as it stands in its field and every value of it is legal (R65). -/
inductive Instr where
  /-- INIT: construct the instance, select the mode, load the seed (R120). -/
  | init (d : Mode) (seed : Reg)
  /-- BIT: one engine step on one input bit (R85). -/
  | bit (b : Bool)
  /-- BYTE: one adapter byte, eight engine steps (R103). -/
  | byte (data : Byte)
  deriving DecidableEq, Repr

/-- One source command of the assembler syntax of R71, with the pseudo-instructions of R72. Operands are the numbers as
written: R71 makes one out of range an assembly error. -/
inductive SourceCommand where
  /-- `INIT S|D, seed`. -/
  | init (d : Mode) (seed : Nat)
  /-- `BIT b`. -/
  | bit (b : Nat)
  /-- `BYTE imm8`. -/
  | byte (imm : Nat)
  /-- `NEW S|D`, the source's `new_scrambler(descramble)`. -/
  | new (d : Mode)
  /-- `PROCESS b0, b1, ...`, the source's `process(bytes_in)`. -/
  | process (bytes : List Nat)
  deriving DecidableEq, Repr

end Sys2Proof
end

