-- ==== Sys2Proof/WellFormed.lean ====
section
/-! DEFINITION. Well-formedness: of an instruction (every typed operand is legal, R65) and of an assembler source
command (each operand in its range, R71). -/

namespace Sys2Proof

/-- R65: "All field values are legal: every seed 0..127, both modes, both bits and every byte 0..255". The operand types
hold exactly those values, so no instruction is ill-formed; the ranges are checked where operands are still numbers,
`SourceCommand.wellFormed`, and reserved bits where a word is still a word, `decode`. -/
def Instr.wellFormed : Instr → Bool
  | .init _ _ => true
  | .bit _ => true
  | .byte _ => true

/-- The operand ranges of R71: seed in 0..127, a bit 0 or 1, a byte in 0..255. -/
def SourceCommand.wellFormed : SourceCommand → Bool
  | .init _ seed => decide (seed < 128)
  | .bit b => decide (b < 2)
  | .byte imm => decide (imm < 256)
  | .new _ => true
  | .process bytes => bytes.all fun b => decide (b < 256)

end Sys2Proof
end

