-- ==== Sys2Proof/Decode.lean ====
section
/-! DEFINITION. The command encoding (spec 30_encoding.md): the field readers (R61 to R65), the total decoder (R66), the
opcode map as data (R70), the encoder (R62 to R64), and the host's way in, `decodeTableWord`. -/

namespace Sys2Proof

/-- `MODE`'s bit: 0 is Scramble, 1 is Descramble (R23). -/
def Mode.toBit : Mode → Bool
  | .scramble => false
  | .descramble => true

/-- The mode that a `D` bit selects (R23, R62). -/
def Mode.ofBit : Bool → Mode
  | false => .scramble
  | true => .descramble

/-- `D = CMD[7]` (R62, R65). -/
def fieldD (w : Word) : Mode := Mode.ofBit (w.getLsbD 7)

/-- `SEED = CMD[6:0]`, bit for bit (R62, R65). -/
def fieldSeed (w : Word) : Reg := w.extractLsb' 0 7

/-- `B = CMD[0]` (R63, R65). -/
def fieldB (w : Word) : Bool := w.getLsbD 0

/-- `DATA = CMD[7:0]` (R64, R65). -/
def fieldData (w : Word) : Byte := w.extractLsb' 0 8

/-- The reserved field `CMD[13:8]` of INIT and BYTE (R62, R64). -/
def reserved13to8 (w : Word) : BitVec 6 := w.extractLsb' 8 6

/-- The reserved field `CMD[13:1]` of BIT (R63). -/
def reserved13to1 (w : Word) : BitVec 13 := w.extractLsb' 1 13

/-- Why a word is no command. -/
inductive DecodeRefusal where
  /-- `ReservedEncoding` (R67, R144): the word has `OP = 11` or a nonzero reserved bit. It records the word (R146). -/
  | reservedEncoding (cmd : Word)
  deriving DecidableEq, Repr

/-- The decoder of R66, total on all 65536 words, by `OP = CMD[15:14]` (R61). Neither the mode nor any other state changes
how a word decodes (R68). -/
def decode (w : Word) : Except DecodeRefusal Instr :=
  match w.getLsbD 15, w.getLsbD 14 with
  | false, false =>
    if reserved13to8 w ≠ 0 then .error (.reservedEncoding w) else .ok (.init (fieldD w) (fieldSeed w))
  | false, true =>
    if reserved13to1 w ≠ 0 then .error (.reservedEncoding w) else .ok (.bit (fieldB w))
  | true, false =>
    if reserved13to8 w ≠ 0 then .error (.reservedEncoding w) else .ok (.byte (fieldData w))
  | true, true => .error (.reservedEncoding w)

/-- The word of a command: the field tables of R62, R63 and R64, most significant field first. -/
def encode : Instr → Word
  | .init d seed => (0b00#2 ++ 0b000000#6) ++ (BitVec.ofBool d.toBit ++ seed)
  | .bit b => (0b01#2 ++ 0b0000000000000#13) ++ BitVec.ofBool b
  | .byte data => (0b10#2 ++ 0b000000#6) ++ data

/-- One row of the opcode map (R70): a word is the row's command when `word &&& mask = pattern`. -/
structure OpcodeRow where
  mnemonic : String
  pattern : Word
  mask : Word
  deriving DecidableEq, Repr

/-- The row of an instruction in the opcode map: its mnemonic, its "match" and its "mask" (R70). -/
def Instr.row : Instr → OpcodeRow
  | .init _ _ => ⟨"INIT", 0x0000, 0xFF00⟩
  | .bit _ => ⟨"BIT", 0x4000, 0xFFFE⟩
  | .byte _ => ⟨"BYTE", 0x8000, 0xFF00⟩

/-- The whole opcode map (R70). -/
def opcodeMap : List OpcodeRow :=
  [⟨"INIT", 0x0000, 0xFF00⟩, ⟨"BIT", 0x4000, 0xFFFE⟩, ⟨"BYTE", 0x8000, 0xFF00⟩]

/-- The one command word an instruction of `nbits` bits with the bits `w` is given as: bits above `nbits` are 0 (R60, R68: a
command is exactly one 16-bit word). -/
def tableWord (nbits w : Nat) : Word := BitVec.ofNat 16 (w % 2 ^ nbits)

/-- The instruction the decoder reads from a word of the opcode table. No command is longer than one word (R68). -/
def decodeTableWord (nbits w : Nat) : Option Instr :=
  if nbits ≤ 16 then
    match decode (tableWord nbits w) with
    | .ok i => some i
    | .error _ => none
  else none

end Sys2Proof
end

