-- ==== Sys2Proof/Machine/State.lean ====
section
/-! DEFINITION. What one instance holds (spec 10_state.md R20), what its host has issued and been answered (R175, R181),
the reasons a step stops for (R141 to R147), and the state at power-on (R170). -/

namespace Sys2Proof.Machine

/-- The values of `FAULT` other than `none` (R28, R146). -/
inductive FaultReason where
  | notInitialised
  | lengthMismatch
  deriving DecidableEq, Repr

/-- What the host may send to an instance (R175). -/
inductive HostCall where
  /-- One command word (R60). -/
  | command (cmd : Word)
  /-- The source's `new_scrambler(descramble)`, the seedless constructor (R121). -/
  | newScrambler (d : Mode)
  /-- The source's `process(bytes_in)` with its claimed length (R106). -/
  | process (claimed : Nat) (bytesIn : List Byte)
  deriving DecidableEq, Repr

/-- What the host gets back for a completed command (R69). -/
inductive Response where
  /-- INIT's acknowledgement, which carries no data. -/
  | ack
  /-- `RESP[7:0]` of a BIT or a BYTE. -/
  | data (resp : Byte)
  deriving DecidableEq, Repr

/-- One instance and its host's side of the exchange. `K` and `ACC` (R20) are left out as R29 says; they are in
Machine/Serial.lean. -/
structure State where
  /-- `REG`, the LFSR register (R21, R22). -/
  reg : Reg
  /-- `MODE` (R23). -/
  mode : Mode
  /-- `VALID`: the instance has been constructed (R27). -/
  valid : Bool
  /-- `FAULT`, the sticky record of a fault; its `none` is the spec's `none` (R28). -/
  fault : Option FaultReason
  /-- The model's own: what the host has issued and the block has not yet taken, oldest first (R11, R25, R50; DESIGN CHOICE, log 2). -/
  pending : List HostCall
  /-- The model's own: the responses given, oldest first, which is what a run's observation is made of (R181; DESIGN CHOICE, log 2). -/
  responses : List Response
  /-- The model's own: how many host agents issue commands to this instance, the configuration of R145 (DESIGN CHOICE, log 8). -/
  hosts : Nat
  deriving DecidableEq, Repr

/-- Power-on (R170): `VALID` = 0 and `FAULT` = none. The spec gives `REG` and `MODE` no value there; 0 and Scramble are a
DESIGN CHOICE (log 1) that no run can observe, since reading either before INIT faults. Nothing has been issued or
answered (DESIGN CHOICE, log 2), and there is the one host of R145. -/
def State.reset : State where
  reg := 0
  mode := .scramble
  valid := false
  fault := none
  pending := []
  responses := []
  hosts := 1

/-- Why a step faults (R141). Each fault carries what R146 records and the state it leaves (R149; DEDUCED, log 3). -/
inductive Fault where
  /-- `NotInitialised` (R142): raised by BIT, BYTE and a PROCESS with n > 0 while `VALID` = 0. Records the call. Safe: the
  spec gives the command no effect before construction. -/
  | notInitialised (call : HostCall) (after : State)
  /-- `LengthMismatch` (R143): raised by a PROCESS whose claimed n differs from the m bytes it comes with. Records n and m.
  Safe: misuse the source calls undefined/unsafe. -/
  | lengthMismatch (claimed supplied : Nat) (after : State)
  /-- R150: `FAULT` is already set, so the instance takes no further step. Raised by the step, by no command; no new outcome is
  reported, the record stays. Safe: it stops (DEDUCED, log 4). -/
  | noFurtherStep (reason : FaultReason) (after : State)
  deriving DecidableEq, Repr

/-- Why a step is refused (R141): the model has no meaning for it. A refusal leaves the state as it was. -/
inductive Refusal where
  /-- An instruction without a meaning yet; none is left. Safe: it stops. -/
  | notModelled (mnemonic : String)
  /-- `ReservedEncoding` (R144): a command word that R66 does not decode. Records the word. Raised by the fetch. Safe. -/
  | reservedEncoding (cmd : Word)
  /-- `ConcurrentUse` (R145): two or more hosts on one instance. Records the instance. Raised by the fetch. Safe. -/
  | concurrentUse (inst : State)
  deriving DecidableEq, Repr

/-- The value of `FAULT` that a fault leaves (R146). -/
def Fault.reason : Fault → FaultReason
  | .notInitialised _ _ => .notInitialised
  | .lengthMismatch _ _ _ => .lengthMismatch
  | .noFurtherStep reason _ => reason

/-- The state that a fault leaves (R149). -/
def Fault.after : Fault → State
  | .notInitialised _ after => after
  | .lengthMismatch _ _ after => after
  | .noFurtherStep _ after => after

/-- The type of a step's outcome (R141): done, fault or refused. -/
abbrev StepOutcome := Host.Outcome State Fault Refusal

end Sys2Proof.Machine
end

