-- ==== Sys2Proof/Machine/Flags.lean ====
section
/-! DEFINITION. The block has no flags, condition codes or status bits (R26). What it has instead is the record of faults:
the cause codes of R146, and how `FAULT` is read and set (R28). -/

namespace Sys2Proof.Machine

/-- The cause code of a fault (R146). -/
def FaultReason.code : FaultReason → Nat
  | .notInitialised => 1
  | .lengthMismatch => 2

/-- Why a run was refused, for the observation (R146, R181). -/
inductive RefusalReason where
  | reservedEncoding
  | concurrentUse
  /-- An instruction the model had no meaning for; never the case in this model. -/
  | unmodelled
  deriving DecidableEq, Repr

/-- The reason of a refusal (R146). -/
def refusalReason : Refusal → RefusalReason
  | .reservedEncoding _ => .reservedEncoding
  | .concurrentUse _ => .concurrentUse
  | _ => .unmodelled

/-- The cause code of a refusal, R1 or R2 (R146). -/
def RefusalReason.code : RefusalReason → Option String
  | .reservedEncoding => some "R1"
  | .concurrentUse => some "R2"
  | .unmodelled => none

/-- `FAULT <- r`, nothing else (R28, R149). No operation clears it. -/
def State.markFault (r : FaultReason) (s : State) : State := { s with fault := some r }

end Sys2Proof.Machine
end

