-- ==== Sys2Proof/Machine/Operands.lean ====
section
/-! DEFINITION. The operand forms: the adapter's two multiplexers (R101, R102, R112), a byte as the list of its bits in
processing order, the zero extension of a response bit (R69), and the host's two stream paths InRead and OutWrite (R10). -/

namespace Sys2Proof.Machine

/-- The bit of a byte that passes the engine at bit step `k` (0..7): bit `7-k` MSB first (R101), bit `k` LSB first
(R112). -/
def bitIndex : BitOrder → Nat → Nat
  | .msbFirst, k => 7 - k
  | .lsbFirst, k => k

/-- The byte-to-bit multiplexer (R101): the engine input of bit step `k`. -/
def selectBit (order : BitOrder) (data : Byte) (k : Nat) : Bool :=
  data.getLsbD (bitIndex order k)

/-- `v` with bit `i` set to `y`. -/
def setBit (v : Byte) (i : Nat) (y : Bool) : Byte :=
  (v &&& ~~~(1#8 <<< i)) ||| ((BitVec.ofBool y).setWidth 8 <<< i)

/-- The bit-to-byte multiplexer (R102): `out` with the output bit of step `k` in its place. -/
def placeBit (order : BitOrder) (out : Byte) (k : Nat) (y : Bool) : Byte :=
  setBit out (bitIndex order k) y

/-- `zext_8(y)`, BIT's response (R69). -/
def zext8 (y : Bool) : Byte := (BitVec.ofBool y).setWidth 8

/-- A byte's bits in the processing order of this hardware, bit 7 first (R42). -/
def bitsMsbFirst (b : Byte) : List Bool :=
  [b.getLsbD 7, b.getLsbD 6, b.getLsbD 5, b.getLsbD 4, b.getLsbD 3, b.getLsbD 2, b.getLsbD 1, b.getLsbD 0]

/-- The byte whose bits, most significant first, are the last eight of a list. -/
def packMsbFirst (ys : List Bool) : Byte :=
  ys.foldl (fun acc y => acc.extractLsb' 0 7 ++ BitVec.ofBool y) 0

/-- `rev8` (R112): the byte with its 8 bits reversed. -/
def rev8 (b : Byte) : Byte := packMsbFirst (bitsMsbFirst b).reverse

/-- `InRead(i)` (R10): byte `i` of the host's input buffer, if the buffer holds one. -/
def inRead (buf : List Byte) (i : Nat) : Option Byte := buf[i]?

/-- `OutWrite(i, v)` (R10): byte `i` of the host's output buffer is set to `v`. -/
def outWrite (buf : List Byte) (i : Nat) (v : Byte) : List Byte := buf.set i v

end Sys2Proof.Machine
end

