-- ==== Sys2Proof/Machine/Ops.lean ====
section
/-! DEFINITION. The shared operations: the engine step on the register (R80 to R84) and on an instance, the answer to the
host (R69), the check of `VALID` (R142), and raising a fault (R141, R149). The block has no exception and so no return from
one (R140, R150). -/

namespace Sys2Proof.Machine

/-- `fb = REG[3] ^ REG[6]` (R81): the source's taps 4 and 7 (R9). -/
def feedback (reg : Reg) : Bool := reg.getLsbD 3 ^^ reg.getLsbD 6

/-- The feedback-driving bit `s` (R83): the output `y` in Scramble mode, the input `x` in Descramble mode. The one place where
the modes differ (R86). -/
def feedbackDriving (mode : Mode) (x y : Bool) : Bool :=
  match mode with
  | .scramble => y
  | .descramble => x

/-- `{REG[5:0], s}` (R83): the oldest bit `REG[6]` is discarded and `s` becomes `REG[0]`. -/
def shiftIn (reg : Reg) (s : Bool) : Reg := reg.extractLsb' 0 6 ++ BitVec.ofBool s

/-- `EngineStep` (R84), as the pure function of register, mode and input bit that R80 calls it: the new register and the
output bit. The register is read before it is written. -/
def engineStep (mode : Mode) (reg : Reg) (x : Bool) : Reg × Bool :=
  let y := x ^^ feedback reg
  (shiftIn reg (feedbackDriving mode x y), y)

/-- `REG <- r`, nothing else. -/
def State.setReg (r : Reg) (s : State) : State := { s with reg := r }

/-- Construction (R120, R123): `MODE <- D`, `REG <- SEED`, `VALID <- 1`. -/
def State.construct (d : Mode) (seed : Reg) (s : State) : State :=
  { s with mode := d, reg := seed, valid := true }

/-- `resp <- r` (R10, R69): the host gets the command's response. -/
def State.respond (r : Response) (s : State) : State := { s with responses := s.responses ++ [r] }

/-- Raising a fault, the one shared operation for it (R141, R149): `FAULT` is set and nothing else changes; no response is given.
`record` is the fault with what R146 says it records. -/
def raiseFault (r : FaultReason) (record : State → Fault) (s : State) : Fault := record (s.markFault r)

/-- The check that BIT and BYTE begin with (R142): when `VALID` = 0 the command faults with `NotInitialised`, and otherwise it
is done, with the next state `done`. -/
def whenConstructed (i : Instr) (s done : State) : StepOutcome :=
  if s.valid then .next done
  else .fault (raiseFault .notInitialised (.notInitialised (.command (encode i))) s)

end Sys2Proof.Machine
end

