-- ==== Sys2Proof/Machine/Engine.lean ====
section
/-! DEFINITION. The engine family (spec 40_engine.md): BIT (R85), and the engine over a stream of bits, the form the laws of
R22, R89, R90, R92 and R93 speak of. -/

namespace Sys2Proof.Machine

/-- BIT once the instance is known to be constructed (R85): one engine step, answered with `zext_8(y)`. -/
def State.bitStep (b : Bool) (s : State) : State :=
  let p := engineStep s.mode s.reg b
  (s.setReg p.1).respond (.data (zext8 p.2))

/-- BIT (R85). -/
def execBit (b : Bool) (s : State) : StepOutcome := whenConstructed (.bit b) s (s.bitStep b)

/-- The engine over a stream of bits, in order: the last register and the output bits (R50, R89). -/
def engineRun (mode : Mode) : Reg → List Bool → Reg × List Bool
  | reg, [] => (reg, [])
  | reg, x :: xs =>
    let p := engineStep mode reg x
    let q := engineRun mode p.1 xs
    (q.1, p.2 :: q.2)

/-- The feedback-driving bits of a run, `s_t` of R22 and R89: the outputs in Scramble mode, the inputs in Descramble mode. -/
def insertedBits (mode : Mode) (seed : Reg) (xs : List Bool) : List Bool :=
  match mode with
  | .scramble => (engineRun .scramble seed xs).2
  | .descramble => xs

/-- The seed as the seven bits `s_(-7), ..., s_(-1)` that stand before a run (R89): `s_(-1-j) = SEED[j]`. -/
def seedHistory (seed : Reg) : List Bool :=
  [seed.getLsbD 6, seed.getLsbD 5, seed.getLsbD 4, seed.getLsbD 3, seed.getLsbD 2, seed.getLsbD 1, seed.getLsbD 0]

end Sys2Proof.Machine
end

