-- ==== Sys2Proof/Machine/Adapter.lean ====
section
/-! DEFINITION. The adapter family (spec 41_adapter.md): BYTE (R103), and the adapter over a stream of bytes (R100, R108). -/

namespace Sys2Proof.Machine

/-- The body of R103's loop: at bit step `k`, the selected input bit passes the engine and the output bit is steered to its
place. The accumulator is the pair of `REG` and `OUT`. -/
def adapterBitStep (order : BitOrder) (mode : Mode) (data : Byte) (acc : Reg × Byte) (k : Nat) : Reg × Byte :=
  let p := engineStep mode acc.1 (selectBit order data k)
  (p.1, placeBit order acc.2 k p.2)

/-- One byte through the adapter (R103): `OUT = 0`, then the eight bit steps `k` = 0..7. The last register and the output
byte. -/
def adapterByte (order : BitOrder) (mode : Mode) (reg : Reg) (data : Byte) : Reg × Byte :=
  [0, 1, 2, 3, 4, 5, 6, 7].foldl (adapterBitStep order mode data) (reg, 0)

/-- A byte stream through the adapter, in order, one byte out per byte in (R43, R100): PROCESS is this left fold (R108). -/
def adapterRun (order : BitOrder) (mode : Mode) : Reg → List Byte → Reg × List Byte
  | reg, [] => (reg, [])
  | reg, b :: bs =>
    let p := adapterByte order mode reg b
    let q := adapterRun order mode p.1 bs
    (q.1, p.2 :: q.2)

/-- The bits a command passes through the engine, in order (R44): BIT's one, BYTE's eight, bit 7 first; INIT passes none. -/
def inputBits : Instr → List Bool
  | .init _ _ => []
  | .bit b => [b]
  | .byte data => bitsMsbFirst data

/-- The engine's output bits as the response of a command carries them, in order (R69): BIT's in bit 0, BYTE's in bits 7 to
0; INIT's acknowledgement carries none. -/
def outputBits : Instr → Response → List Bool
  | .bit _, .data resp => [resp.getLsbD 0]
  | .byte _, .data resp => bitsMsbFirst resp
  | .init _ _, .data _ => []
  | _, .ack => []

/-- BYTE once the instance is known to be constructed (R103). -/
def State.byteStep (data : Byte) (s : State) : State :=
  let p := adapterByte Config.bitOrder s.mode s.reg data
  (s.setReg p.1).respond (.data p.2)

/-- BYTE (R103). -/
def execByte (data : Byte) (s : State) : StepOutcome := whenConstructed (.byte data) s (s.byteStep data)

end Sys2Proof.Machine
end

