-- ==== Sys2Proof/Machine/Construct.lean ====
section
/-! DEFINITION. The construction family (spec 42_construction.md): INIT (R120) and the seedless constructor (R121). -/

namespace Sys2Proof.Machine

/-- INIT (R120): legal in every state; an instance already constructed is replaced and nothing of its `REG` or `MODE`
survives (R123). `FAULT` is unchanged. The response is the acknowledgement (R69). -/
def execInit (d : Mode) (seed : Reg) (s : State) : StepOutcome :=
  .next ((s.construct d seed).respond .ack)

/-- `new_scrambler(descramble)` and `NEW` (R72, R121): INIT with `SEED = DEFAULT_SEED`. -/
def newInstr (d : Mode) : Instr := .init d Config.defaultSeed

end Sys2Proof.Machine
end

