-- ==== Sys2Proof/Machine/Dispatch.lean ====
section
/-! DEFINITION. The meaning of each command, one arm per constructor of `Instr`. -/

namespace Sys2Proof.Machine

def exec (i : Instr) (s : State) : Host.Outcome State Fault Refusal :=
  match i with
  | .init d seed => Sys2Proof.Machine.execInit d seed s
  | .bit b => Sys2Proof.Machine.execBit b s
  | .byte data => Sys2Proof.Machine.execByte data s

end Sys2Proof.Machine
end

