-- ==== Sys2Proof/Machine/Process.lean ====
section
/-! DEFINITION. The PROCESS transaction (R106), in two readings. `acceptProcess` is the one the step uses: the checks, and then
the BYTE commands the call expands into (R72, R181). `processTransaction` is R106's own pseudocode over the host's buffers. -/

namespace Sys2Proof.Machine

/-- The command words a call of PROCESS expands into (R72): `BYTE b0`, `BYTE b1`, ..., in order. -/
def expandProcess (bytesIn : List Byte) : List HostCall :=
  bytesIn.map fun b => .command (encode (.byte b))

/-- The checks of a PROCESS, before any byte (R106), in the order of R147: the length, then `VALID` when n > 0. -/
def processCheck (claimed : Nat) (bytesIn : List Byte) (s : State) : Option Fault :=
  if bytesIn.length ≠ claimed then
    some (raiseFault .lengthMismatch (.lengthMismatch claimed bytesIn.length) s)
  else if 0 < claimed ∧ s.valid = false then
    some (raiseFault .notInitialised (.notInitialised (.process claimed bytesIn)) s)
  else none

/-- Taking a PROCESS call: it faults, or its BYTE commands go ahead of whatever the host issued after it (R46, R106). With
n = 0 there are none: a no-op. -/
def acceptProcess (claimed : Nat) (bytesIn : List Byte) (s : State) : StepOutcome :=
  match processCheck claimed bytesIn s with
  | some f => .fault f
  | none => .next { s with pending := expandProcess bytesIn ++ s.pending }

/-- `for i in ...: OutWrite(i, BYTE(InRead(i)))` (R106), for the next `count` bytes from byte `i` on: the last register and
the output buffer. -/
def processLoop (mode : Mode) (bytesIn : List Byte) : (count i : Nat) → Reg → List Byte → Reg × List Byte
  | 0, _, reg, out => (reg, out)
  | count + 1, i, reg, out =>
    match inRead bytesIn i with
    | none => (reg, out)
    | some b =>
      let p := adapterByte Config.bitOrder mode reg b
      processLoop mode bytesIn count (i + 1) p.1 (outWrite out i p.2)

/-- PROCESS as R106's pseudocode has it, one call of a function: a fault, or the instance after it with the output buffer of n
bytes. The buffer starts as n zero bytes; every one is written (DESIGN CHOICE, log 6). -/
def processTransaction (claimed : Nat) (bytesIn : List Byte) (s : State) : Except Fault (State × List Byte) :=
  match processCheck claimed bytesIn s with
  | some f => .error f
  | none =>
    let p := processLoop s.mode bytesIn claimed 0 s.reg (List.replicate claimed 0)
    .ok (s.setReg p.1, p.2)

end Sys2Proof.Machine
end

