-- ==== Sys2Proof/Machine/Fetch.lean ====
section
/-! DEFINITION. Taking what the host has issued (R11, R25, R50): the block has no program counter and fetches from no memory;
its next command is the oldest call the host has issued and it has not taken. The order of the checks is R147's. -/

namespace Sys2Proof.Machine

/-- A command word (R60): decoded and run, or refused as `ReservedEncoding` (R66, R144). Decoding comes before the check of
`VALID` (R147). -/
def runCommand (cmd : Word) (s : State) : StepOutcome :=
  match decode cmd with
  | .ok i => exec i s
  | .error (.reservedEncoding w) => .refused (.reservedEncoding w)

/-- One call of the host on the instance `s` that has taken it off its `pending` list (R175). -/
def runCall (c : HostCall) (s : State) : StepOutcome :=
  match c with
  | .command cmd => runCommand cmd s
  | .newScrambler d => exec (newInstr d) s
  | .process claimed bytesIn => acceptProcess claimed bytesIn s

/-- The oldest pending call, if there is one. With nothing issued the instance keeps its state, for any length of time
(R157; DEDUCED, log 5). -/
def takeCall (s : State) : StepOutcome :=
  match s.pending with
  | [] => .next s
  | c :: rest => runCall c { s with pending := rest }

/-- One step of the instance: `ConcurrentUse` is checked on the configuration, before any step (R145, R147); a faulted
instance takes no further step (R147, R150; DEDUCED, log 4); else the next call is taken. -/
def stepInstance (s : State) : StepOutcome :=
  if 2 ≤ s.hosts then .refused (.concurrentUse s)
  else
    match s.fault with
    | some r => .fault (.noFurtherStep r s)
    | none => takeCall s

/-- The host issues one more call, after those already issued (R50). -/
def State.issue (c : HostCall) (s : State) : State := { s with pending := s.pending ++ [c] }

/-- A command word put where the next step takes it from. -/
def State.pushCommand (cmd : Word) (s : State) : State := { s with pending := .command cmd :: s.pending }

end Sys2Proof.Machine
end

