-- ==== Sys2Proof/Machine/Step.lean ====
section
/-! DEFINITION. One step of the machine, and how a word of the opcode table is given to it. -/

namespace Sys2Proof.Machine

/-- One step of one instance (R11, R141): the next call of the host, done, faulted or refused. -/
def step (s : State) : Host.Outcome State Fault Refusal := stepInstance s

/-- The state with that command as the host's next call (DESIGN CHOICE, log 7): the very next step runs exactly it. Bits above `nbits`
are 0. -/
def State.withFetchWord (s : State) (nbits w : Nat) : State := s.pushCommand (tableWord nbits w)

end Sys2Proof.Machine
end

