-- ==== Sys2Proof/Machine/Assembler.lean ====
section
/-! DEFINITION. The assembler notation of the spec (R71) with its pseudo-instructions (R72). Text is a list of characters. The
lexical details the spec does not state are log 12. -/

namespace Sys2Proof.Machine

/-- The instructions a source command stands for: itself, or what R72 expands it to. Operands are in range (`wellFormed`). -/
def expandSource : SourceCommand → List Instr
  | .init d seed => [.init d (BitVec.ofNat 7 seed)]
  | .bit b => [.bit (decide (b = 1))]
  | .byte imm => [.byte (BitVec.ofNat 8 imm)]
  | .new d => [newInstr d]
  | .process bytes => bytes.map fun b => .byte (BitVec.ofNat 8 b)

/-- The words of a source command; an operand out of range is an error, and no word is emitted for it (R71). A `PROCESS` line with one
such operand gives no word at all, not even for its operands in range (DESIGN CHOICE, log 18). -/
def assembleSource (c : SourceCommand) : Option (List Word) :=
  if c.wellFormed then some ((expandSource c).map encode) else none

/-- A lexical token of a line. -/
inductive Token where
  | comma
  | name (cs : List Char)
  deriving DecidableEq, Repr

/-- Blank characters (DESIGN CHOICE, log 12). -/
def isBlank (c : Char) : Bool := c == ' ' || c == '\t' || c == '\r'

/-- The name read so far, if any; `acc` is in reverse. -/
def flushName (acc : List Char) : List Token :=
  match acc with
  | [] => []
  | _ :: _ => [.name acc.reverse]

/-- The tokens of a line, up to a comment (R71: a `;` starts one). -/
def tokenize : List Char → (acc : List Char) → List Token
  | [], acc => flushName acc
  | c :: cs, acc =>
    if c == ';' then flushName acc
    else if c == ',' then flushName acc ++ .comma :: tokenize cs []
    else if isBlank c then flushName acc ++ tokenize cs []
    else tokenize cs (c :: acc)

/-- The value of a decimal or hexadecimal digit, if it is one below `base`. -/
def digitValue (base : Nat) (c : Char) : Option Nat :=
  let n := c.toNat
  let v :=
    if 48 ≤ n ∧ n ≤ 57 then n - 48
    else if 65 ≤ n ∧ n ≤ 70 then n - 55
    else if 97 ≤ n ∧ n ≤ 102 then n - 87
    else 16
  if v < base then some v else none

/-- The number that digits spell after the value `acc`. -/
def readDigits (base : Nat) : List Char → Nat → Option Nat
  | [], acc => some acc
  | c :: cs, acc =>
    match digitValue base c with
    | some v => readDigits base cs (base * acc + v)
    | none => none

/-- A number: decimal, or hexadecimal after `0x` (R71). -/
def readNumber : List Char → Option Nat
  | '0' :: 'x' :: c :: cs => readDigits 16 (c :: cs) 0
  | c :: cs => readDigits 10 (c :: cs) 0
  | [] => none

/-- The mode letters of R71. -/
def readMode (cs : List Char) : Option Mode :=
  if cs = ['S'] then some .scramble else if cs = ['D'] then some .descramble else none

/-- Numbers separated by commas. -/
def readOperands : List Token → Option (List Nat)
  | [] => none
  | [.name cs] => (readNumber cs).map fun n => [n]
  | .name cs :: .comma :: ts =>
    match readNumber cs, readOperands ts with
    | some n, some ns => some (n :: ns)
    | _, _ => none
  | _ => none

/-- The source command that a line's tokens write (R71, R72). -/
def parseTokens : List Token → Option SourceCommand
  | [.name ['I', 'N', 'I', 'T'], .name m, .comma, .name n] =>
    match readMode m, readNumber n with
    | some d, some seed => some (.init d seed)
    | _, _ => none
  | [.name ['B', 'I', 'T'], .name n] => (readNumber n).map .bit
  | [.name ['B', 'Y', 'T', 'E'], .name n] => (readNumber n).map .byte
  | [.name ['N', 'E', 'W'], .name m] => (readMode m).map .new
  | [.name ['P', 'R', 'O', 'C', 'E', 'S', 'S']] => some (.process [])
  | .name ['P', 'R', 'O', 'C', 'E', 'S', 'S'] :: ts => (readOperands ts).map .process
  | _ => none

/-- The words of one line (R71: one command per line); `none` is an assembly error. A line with nothing but blanks and a
comment writes no word. -/
def assembleLine (line : List Char) : Option (List Word) :=
  match tokenize line [] with
  | [] => some []
  | ts =>
    match parseTokens ts with
    | some c => assembleSource c
    | none => none

/-- The lines of a text. -/
def splitLines : List Char → (acc : List Char) → List (List Char)
  | [], acc => [acc.reverse]
  | c :: cs, acc => if c == '\n' then acc.reverse :: splitLines cs [] else splitLines cs (c :: acc)

/-- A program, line by line: each line's words, or its error. -/
def assemble (text : List Char) : List (Option (List Word)) := (splitLines text []).map assembleLine

/-- The upper-case hexadecimal digit of a value below 16. -/
def hexDigit (n : Nat) : Char := if n < 10 then Char.ofNat (48 + n) else Char.ofNat (55 + n)

/-- `0x` and the hexadecimal digits of a value, `digits` of them. -/
def hexNumber (digits n : Nat) : List Char :=
  '0' :: 'x' :: ((List.range digits).reverse.map fun i => hexDigit (n / 16 ^ i % 16))

/-- An instruction in the notation of R71. -/
def printInstr : Instr → List Char
  | .init d seed =>
    ['I', 'N', 'I', 'T', ' ', (match d with | .scramble => 'S' | .descramble => 'D'), ',', ' '] ++ hexNumber 2 seed.toNat
  | .bit b => ['B', 'I', 'T', ' ', if b then '1' else '0']
  | .byte data => ['B', 'Y', 'T', 'E', ' '] ++ hexNumber 2 data.toNat

/-- The disassembler (R71): a refused word is printed as `.word 0xNNNN ; reserved`. -/
def disassemble (w : Word) : List Char :=
  match decode w with
  | .ok i => printInstr i
  | .error _ =>
    ['.', 'w', 'o', 'r', 'd', ' '] ++ hexNumber 4 w.toNat ++ [' ', ';', ' ', 'r', 'e', 's', 'e', 'r', 'v', 'e', 'd']

end Sys2Proof.Machine
end

