-- ==== Sys2Proof/Machine/Serial.lean ====
section
/-! DEFINITION. The bit-serial adapter of R104: one BYTE command as eight micro-steps, with the index `K` and the accumulator
`ACC` that exist only while it runs (R20, R29). It is a second reading of BYTE; no host sees a state of it between
micro-steps. -/

namespace Sys2Proof.Machine

/-- A BYTE command in progress: `REG` and `MODE` of the instance, the byte being processed, `K` and `ACC` (R20, R104). -/
structure Serial where
  reg : Reg
  mode : Mode
  data : Byte
  /-- `K`, 3 bits. -/
  k : BitVec 3
  /-- `ACC`, 8 bits. -/
  acc : Byte
  deriving DecidableEq, Repr

/-- The load: `K <- 0; ACC <- 0` (R104). -/
def serialLoad (mode : Mode) (reg : Reg) (data : Byte) : Serial where
  reg := reg
  mode := mode
  data := data
  k := 0
  acc := 0

/-- One micro-step (R104): select input `7-K`, one engine step, steer to output `7-K`, `K <- K + 1 (mod 8)`. -/
def serialStep (m : Serial) : Serial :=
  let p := engineStep m.mode m.reg (m.data.getLsbD (7 - m.k.toNat))
  { m with reg := p.1, acc := setBit m.acc (7 - m.k.toNat) p.2, k := m.k + 1 }

/-- `n` micro-steps. -/
def serialRun : Nat → Serial → Serial
  | 0, m => m
  | n + 1, m => serialRun n (serialStep m)

end Sys2Proof.Machine
end

