-- ==== Sys2Proof/Machine/System.lean ====
section
/-! DEFINITION. Several instances (R30, R54, R155): each is a `State` of its own with its own host; they share nothing, and
which one moves next is free. -/

namespace Sys2Proof.Machine

/-- What an outcome leaves of the instance it is about (R141): a fault leaves the state it carries, a refusal changes
nothing. -/
def outcomeState (s : State) : StepOutcome → State
  | .next s' => s'
  | .fault f => f.after
  | .refused _ => s

/-- Any number of instances; the list's positions are the model's, the block sees no identifier (R155; DESIGN CHOICE, log 13). -/
structure System where
  instances : List State
  deriving DecidableEq, Repr

/-- `n` instances at power-on. -/
def System.powerOn (n : Nat) : System := ⟨List.replicate n State.reset⟩

/-- Instance `k` takes one step; a fault or a refusal of it stops that instance alone (R155). -/
def System.stepAt (k : Nat) (sys : System) : System :=
  ⟨sys.instances.modify k fun s => outcomeState s (step s)⟩

/-- The host of instance `k` issues a call to it. -/
def System.issueAt (k : Nat) (c : HostCall) (sys : System) : System :=
  ⟨sys.instances.modify k fun s => s.issue c⟩

end Sys2Proof.Machine
end

