-- ==== Sys2Proof/Safety.lean ====
section
/-! DEFINITION. What a run is and when it is safe (R141, R181): its observation, its end, and the invariant that every step
keeps. -/

namespace Sys2Proof.Machine

/-- The instance can take a step (R145, R147, R150): one host at most, and no fault recorded. -/
abbrev State.Ready (s : State) : Prop := s.hosts < 2 ∧ s.fault = none

/-- `n` steps, stopping at the first fault or refusal (R181). -/
def run (n : Nat) (s : State) : StepOutcome := Host.Core.run Sys2Proof.core n s

/-- How a run ends (R181). -/
inductive RunEnd where
  /-- Every command has completed. -/
  | done
  /-- Commands are left: the run was cut short, which is no end of it. -/
  | unfinished
  | fault (r : FaultReason)
  | refused (r : RefusalReason)
  deriving DecidableEq, Repr

/-- What the host sees of a run (R181): the responses, and the outcome of the last command. `REG` and `MODE` are no part of
it (R125). -/
structure Observation where
  responses : List Response
  ending : RunEnd
  deriving DecidableEq, Repr

/-- How things stand with an instance that takes no more steps: with two hosts it had no run (R145), a faulted one is never a
successful end (R149, R181), and otherwise the run is done when nothing is pending. -/
def restEnd (s : State) : RunEnd :=
  if 2 ≤ s.hosts then .refused .concurrentUse
  else
    match s.fault with
    | some r => .fault r
    | none => if s.pending = [] then .done else .unfinished

/-- The observation after at most `n` steps. A fault or refusal gives no response (R69, R149). -/
def observeRun : Nat → State → Observation
  | 0, s => ⟨s.responses, restEnd s⟩
  | n + 1, s =>
    match step s with
    | .next s' => observeRun n s'
    | .fault f => ⟨s.responses, .fault f.reason⟩
    | .refused r => ⟨s.responses, .refused (refusalReason r)⟩

/-- How many steps a call takes: a command one, a PROCESS one for its checks and one for each of its bytes (DESIGN CHOICE, log 6). -/
def HostCall.cost : HostCall → Nat
  | .command _ => 1
  | .newScrambler _ => 1
  | .process _ bytesIn => 1 + bytesIn.length

/-- How many steps the calls still pending take. -/
def State.workLeft (s : State) : Nat := (s.pending.map HostCall.cost).sum

/-- A run is safe when it ends with every command done: no fault and no refusal (R141, R181). -/
def SafeRun (s : State) : Prop := (observeRun s.workLeft s).ending = .done

/-- The host's calls keep its duties (R172, R175), for an instance whose `VALID` is `valid`: every word is a command, data comes only
after construction, and every claimed length is right. -/
def legalCalls : (valid : Bool) → List HostCall → Bool
  | _, [] => true
  | valid, .command w :: calls =>
    match decode w with
    | .ok (.init _ _) => legalCalls true calls
    | .ok (.bit _) => valid && legalCalls valid calls
    | .ok (.byte _) => valid && legalCalls valid calls
    | .error _ => false
  | _, .newScrambler _ :: calls => legalCalls true calls
  | valid, .process claimed bytesIn :: calls =>
    decide (bytesIn.length = claimed) && (decide (claimed = 0) || valid) && legalCalls valid calls

/-- How many responses a call is answered with when it is done (R69, R100, R106): one per command, PROCESS one per byte. -/
def HostCall.answers : HostCall → Nat
  | .command _ => 1
  | .newScrambler _ => 1
  | .process _ bytesIn => bytesIn.length

/-- What holds of an instance that has not faulted: one host at most (R145); nothing has been answered before construction, and
the first answer after it is INIT's acknowledgement (R27, R69, R142). -/
abbrev State.Inv (s : State) : Prop :=
  s.fault = none ∧ s.hosts ≤ 1 ∧ (s.valid = false → s.responses = []) ∧
    (s.valid = true → s.responses.head? = some .ack)

end Sys2Proof.Machine
end

