-- ==== Sys2Proof/Certificates/Slice0/Obligations.lean ====
section
/-! DEFINITION. The statements for the provers. Each docstring names the rule of spec/ it formalises; `State.Ready` is "one host at
most, no fault recorded", and `run n` is `n` steps. -/

open Sys2Proof Sys2Proof.Machine

/-! ### The command encoding -/

/-- The words of the decode vectors E1 to E14 (95_test_vectors.md section 2.4). -/
def Obligations.TableWordsDecode : Prop :=
  decode 0x0000 = .ok (.init .scramble 0x00) ∧ decode 0x007F = .ok (.init .scramble 0x7F) ∧
  decode 0x0080 = .ok (.init .descramble 0x00) ∧ decode 0x00FF = .ok (.init .descramble 0x7F) ∧
  decode 0x4000 = .ok (.bit false) ∧ decode 0x4001 = .ok (.bit true) ∧
  decode 0x8000 = .ok (.byte 0x00) ∧ decode 0x80FF = .ok (.byte 0xFF) ∧
  decode 0x0100 = .error (.reservedEncoding 0x0100) ∧ decode 0x7F00 = .error (.reservedEncoding 0x7F00) ∧
  decode 0x4002 = .error (.reservedEncoding 0x4002) ∧ decode 0x8100 = .error (.reservedEncoding 0x8100) ∧
  decode 0xC000 = .error (.reservedEncoding 0xC000) ∧ decode 0xFFFF = .error (.reservedEncoding 0xFFFF)

/-- Decoding the word of a well-formed instruction gives it back, at every operand value (R62 to R66). -/
def Obligations.DecodeOfEncode : Prop :=
  ∀ i : Instr, i.wellFormed = true → decode (encode i) = .ok i

/-- Each word that decodes has one meaning: it is the word of the instruction it decodes to (R66, R70). -/
def Obligations.EncodeOfDecode : Prop :=
  ∀ (w : Word) (i : Instr), decode w = .ok i → i.wellFormed = true ∧ encode i = w

/-- R66: the decoder's case table, total on all words, and its counts: 256 INIT, 2 BIT and 256 BYTE words, 514 in all, and
65022 refused. -/
def Obligations.DecoderTableAndCounts : Prop :=
  (∀ w : Word,
    (w.extractLsb' 14 2 = 0b00#2 →
      decode w = if w.extractLsb' 8 6 ≠ 0#6 then .error (.reservedEncoding w)
        else .ok (.init (if w.getLsbD 7 then .descramble else .scramble) (w.extractLsb' 0 7))) ∧
    (w.extractLsb' 14 2 = 0b01#2 →
      decode w = if w.extractLsb' 1 13 ≠ 0#13 then .error (.reservedEncoding w) else .ok (.bit (w.getLsbD 0))) ∧
    (w.extractLsb' 14 2 = 0b10#2 →
      decode w = if w.extractLsb' 8 6 ≠ 0#6 then .error (.reservedEncoding w)
        else .ok (.byte (w.extractLsb' 0 8))) ∧
    (w.extractLsb' 14 2 = 0b11#2 → decode w = .error (.reservedEncoding w))) ∧
  Set.ncard {w : Word | ∃ d seed, decode w = .ok (.init d seed)} = 256 ∧
  Set.ncard {w : Word | ∃ b, decode w = .ok (.bit b)} = 2 ∧
  Set.ncard {w : Word | ∃ data, decode w = .ok (.byte data)} = 256 ∧
  Set.ncard {w : Word | ∃ i, decode w = .ok i} = 514 ∧
  Set.ncard {w : Word | ∃ e, decode w = .error e} = 65022

/-- The opcode map's match and mask columns (R70; opcode_table.json): a word decodes to a command of a row exactly when it
agrees with the row's match under its mask. -/
def Obligations.OpcodeMapMatchesDecoder : Prop :=
  ∀ w : Word,
    ((∃ d seed, decode w = .ok (.init d seed)) ↔ w &&& 0xFF00#16 = 0x0000#16) ∧
    ((∃ b, decode w = .ok (.bit b)) ↔ w &&& 0xFFFE#16 = 0x4000#16) ∧
    ((∃ data, decode w = .ok (.byte data)) ↔ w &&& 0xFF00#16 = 0x8000#16)

/-- R65: every operand is taken as it stands in its field, bit for bit, as it acts on the instance: SEED loads REG, D is MODE, B is
the engine's input bit, DATA[7] enters the engine first; and every value of every field is legal. -/
def Obligations.OperandsAreTheFieldsBitForBit : Prop :=
  (∀ (w : Word) (d : Mode) (seed : Reg) (s : State), decode w = .ok (.init d seed) →
    ∃ t, exec (.init d seed) s = .next t ∧ (∀ j, j < 7 → t.reg.getLsbD j = w.getLsbD j) ∧
      (t.mode = .descramble ↔ w.getLsbD 7 = true)) ∧
  (∀ (w : Word) (b : Bool), decode w = .ok (.bit b) → b = w.getLsbD 0) ∧
  (∀ (w : Word) (data : Byte), decode w = .ok (.byte data) →
    (∀ j, j < 8 → data.getLsbD j = w.getLsbD j) ∧ (inputBits (.byte data))[0]? = some (w.getLsbD 7)) ∧
  (∀ (d : Mode) (seed : Reg), ∃ w, decode w = .ok (.init d seed)) ∧
  (∀ b : Bool, ∃ w, decode w = .ok (.bit b)) ∧
  (∀ data : Byte, ∃ w, decode w = .ok (.byte data))

/-- The disassembler and the assembler agree (R71): the line printed for a legal word assembles to that word alone, and a
refused word is printed as `.word 0xNNNN ; reserved`. -/
def Obligations.AssembleOfDisassemble : Prop :=
  (∀ (w : Word) (i : Instr), decode w = .ok i → assembleLine (disassemble w) = some [w]) ∧
  (∀ (w : Word) (e : DecodeRefusal), decode w = .error e →
    ∃ a b c d : Char, disassemble w =
      ['.', 'w', 'o', 'r', 'd', ' ', '0', 'x', a, b, c, d, ' ', ';', ' ', 'r', 'e', 's', 'e', 'r', 'v', 'e', 'd'] ∧
      readNumber ['0', 'x', a, b, c, d] = some w.toNat)

/-- The assembler's operand ranges and pseudo-instructions (R71, R72): an operand in range gives its word, one out of range no
word; `NEW` is INIT with DEFAULT_SEED, and `PROCESS` its BYTEs in order. That a `PROCESS` line with one operand out of range gives no
word at all is the model's choice (log 18). -/
def Obligations.SourceCommandsExpand : Prop :=
  (∀ (d : Mode) (seed : Nat), assembleSource (.init d seed) =
    if seed < 128 then some [encode (.init d (BitVec.ofNat 7 seed))] else none) ∧
  (∀ b : Nat, assembleSource (.bit b) = if b < 2 then some [encode (.bit (b == 1))] else none) ∧
  (∀ imm : Nat, assembleSource (.byte imm) =
    if imm < 256 then some [encode (.byte (BitVec.ofNat 8 imm))] else none) ∧
  (∀ d : Mode, assembleSource (.new d) = some [encode (.init d Config.defaultSeed)]) ∧
  (∀ bytes : List Byte, assembleSource (.process (bytes.map BitVec.toNat)) =
    some (bytes.map fun b => encode (.byte b))) ∧
  (∀ bytes : List Nat, (∃ b ∈ bytes, 256 ≤ b) → assembleSource (.process bytes) = none)

/-! ### The commands -/

/-- R120: INIT's word, and its effect in every state: MODE, REG and VALID are written, FAULT and all else stay, the response is
the acknowledgement; the rule's example is `INIT D, 0x7F`, word 0x00FF. -/
def Obligations.InitConstructs : Prop :=
  (∀ (d : Mode) (seed : Reg), encode (.init d seed) &&& 0xFF00#16 = 0x0000#16 ∧
    (encode (.init d seed)).getLsbD 7 = (d == .descramble) ∧ (encode (.init d seed)).extractLsb' 0 7 = seed) ∧
  (∀ (d : Mode) (seed : Reg) (s : State), exec (.init d seed) s =
    .next { s with mode := d, reg := seed, valid := true, responses := s.responses ++ [.ack] }) ∧
  encode (.init .descramble 0x7F) = 0x00FF#16

/-- R123: an INIT on a constructed instance ends it; nothing of the old REG or MODE survives. -/
def Obligations.InitForgetsTheOldInstance : Prop :=
  ∀ (d : Mode) (seed r : Reg) (m : Mode) (s : State),
    exec (.init d seed) { s with reg := r, mode := m } = exec (.init d seed) s ∧
      ∃ t, exec (.init d seed) s = .next t ∧ t.reg = seed ∧ t.mode = d

/-- R121: the seedless constructor is INIT with DEFAULT_SEED, whatever value that has. -/
def Obligations.NewConstructsWithDefaultSeed : Prop :=
  ∀ (d : Mode) (rest : List HostCall) (s : State), s.Ready → s.pending = .newScrambler d :: rest →
    step s = .next { s with mode := d, reg := Config.defaultSeed, valid := true, pending := rest,
                            responses := s.responses ++ [.ack] }

/-- R85: BIT's word; when VALID = 1 one engine step of R84 on its bit, answered with `zext_8(y)`, nothing else changed; when
VALID = 0 the fault NotInitialised; the rule's corner case and its example. -/
def Obligations.BitRunsOneEngineStep : Prop :=
  (∀ b : Bool, encode (.bit b) &&& 0xFFFE#16 = 0x4000#16 ∧ (encode (.bit b)).getLsbD 0 = b) ∧
  (∀ (b : Bool) (s : State), s.valid = true → exec (.bit b) s =
    .next { s with
      reg := s.reg.extractLsb' 0 6 ++ BitVec.ofBool
        (if s.mode = .scramble then b ^^ (s.reg.getLsbD 3 ^^ s.reg.getLsbD 6) else b),
      responses := s.responses ++
        [.data ((BitVec.ofBool (b ^^ (s.reg.getLsbD 3 ^^ s.reg.getLsbD 6))).setWidth 8)] }) ∧
  (∀ (b : Bool) (s : State), s.valid = false → exec (.bit b) s =
    .fault (.notInitialised (.command (encode (.bit b))) { s with fault := some .notInitialised })) ∧
  (∀ (b : Bool) (s : State), s.valid = true → s.reg = 0x00 → ∃ t, exec (.bit b) s = .next t ∧
    t.responses = s.responses ++ [.data ((BitVec.ofBool b).setWidth 8)]) ∧
  (∀ s : State, s.valid = true → s.mode = .scramble → s.reg = 0x08 → exec (.bit false) s =
    .next { s with reg := 0x11, responses := s.responses ++ [.data 0x01] })

/-- R103: BYTE's word; when VALID = 1 eight engine steps on `DATA[7-k]`, k = 0..7, each output bit placed at `OUT[7-k]`, the
answer OUT, nothing else changed; when VALID = 0 the fault NotInitialised; the rule's corner cases and its example. -/
def Obligations.ByteRunsEightEngineSteps : Prop :=
  (∀ data : Byte, encode (.byte data) &&& 0xFF00#16 = 0x8000#16 ∧ (encode (.byte data)).extractLsb' 0 8 = data) ∧
  (∀ (data : Byte) (s : State), s.valid = true →
    ∃ (xs : List Bool) (out : Byte), xs.length = 8 ∧
      (∀ k, k < 8 → xs[k]? = some (data.getLsbD (7 - k))) ∧
      (∀ k, k < 8 → (engineRun s.mode s.reg xs).2[k]? = some (out.getLsbD (7 - k))) ∧
      exec (.byte data) s = .next { s with reg := (engineRun s.mode s.reg xs).1,
                                           responses := s.responses ++ [.data out] }) ∧
  (∀ (data : Byte) (s : State), s.valid = false → exec (.byte data) s =
    .fault (.notInitialised (.command (encode (.byte data))) { s with fault := some .notInitialised })) ∧
  (∀ s : State, s.valid = true → s.reg = 0x00 → exec (.byte 0x00) s =
    .next { s with responses := s.responses ++ [.data 0x00] }) ∧
  (∀ s : State, s.valid = true → s.reg = 0x7F → exec (.byte 0xFF) s =
    .next { s with responses := s.responses ++ [.data 0xFF] }) ∧
  (∀ s : State, s.valid = true → s.mode = .scramble → s.reg = 0x7F → exec (.byte 0x00) s =
    .next { s with reg := 0x0E, responses := s.responses ++ [.data 0x0E] })

/-- R69: the response of each completed command (BIT `zext_8(y)`, its bits 7..1 zero; BYTE the output byte; INIT the
acknowledgement), and none from a faulted one. -/
def Obligations.ResponseForms : Prop :=
  (∀ (b : Bool) (s t : State), exec (.bit b) s = .next t →
    ∃ r : Byte, t.responses = s.responses ++ [.data r] ∧ r.extractLsb' 1 7 = 0#7 ∧
      r.getLsbD 0 = (engineStep s.mode s.reg b).2) ∧
  (∀ (data : Byte) (s t : State), exec (.byte data) s = .next t →
    t.responses = s.responses ++ [.data (adapterByte .msbFirst s.mode s.reg data).2]) ∧
  (∀ (d : Mode) (seed : Reg) (s t : State), exec (.init d seed) s = .next t → t.responses = s.responses ++ [.ack]) ∧
  (∀ (s : State) (f : Fault), step s = .fault f → f.after.responses = s.responses) ∧
  (∀ (s : State) (r : Refusal), step s = .refused r → (outcomeState s (step s)).responses = s.responses)

/-- What no command writes, and what only INIT writes: a completed command leaves FAULT, the hosts and the pending calls, gives
exactly one response after those given, and leaves MODE and VALID too unless it is INIT (R28, R84, R120, R124). -/
def Obligations.CommandFrames : Prop :=
  ∀ (i : Instr) (s t : State), exec i s = .next t →
    t.fault = s.fault ∧ t.hosts = s.hosts ∧ t.pending = s.pending ∧ (∃ r, t.responses = s.responses ++ [r]) ∧
    ((∀ d seed, i ≠ .init d seed) → t.mode = s.mode ∧ t.valid = s.valid ∧ s.valid = true)

/-- R124: no command except INIT writes MODE; over steps, MODE changes only when the call taken is an INIT word or the
seedless constructor. -/
def Obligations.OnlyInitWritesMode : Prop :=
  (∀ (i : Instr) (s t : State), exec i s = .next t → t.mode ≠ s.mode → ∃ d seed, i = .init d seed) ∧
  (∀ s t : State, step s = .next t → t.mode ≠ s.mode →
    ∃ c, s.pending = c :: t.pending ∧
      ((∃ d, c = .newScrambler d) ∨ ∃ w d seed, c = .command w ∧ decode w = .ok (.init d seed)))

/-- REG changes only when the call taken is a command word or the seedless constructor (R84: "nothing else changes REG except
INIT"): idling and taking a PROCESS call leave REG, MODE, VALID, FAULT and the responses. -/
def Obligations.OnlyCommandsTouchTheInstance : Prop :=
  ∀ s t : State, step s = .next t →
    (∀ w rest, s.pending ≠ .command w :: rest) → (∀ d rest, s.pending ≠ .newScrambler d :: rest) →
    t = { s with pending := t.pending }

/-- The two modes differ in nothing but the bit inserted (R86): on one register and input bit the response is the same, bits 6..1 of
the new register are the same, and bit 0 differs exactly when the feedback is 1. -/
def Obligations.ModesDifferOnlyInTheInsertedBit : Prop :=
  ∀ (b : Bool) (s : State), s.valid = true →
    ∃ t u, exec (.bit b) { s with mode := .scramble } = .next t ∧ exec (.bit b) { s with mode := .descramble } = .next u ∧
      t.responses = u.responses ∧ t.reg.extractLsb' 1 6 = u.reg.extractLsb' 1 6 ∧
      (t.reg.getLsbD 0 ^^ u.reg.getLsbD 0) = (s.reg.getLsbD 3 ^^ s.reg.getLsbD 6)

/-- INIT is idempotent and BYTE is not (20_memory.md R47): a second INIT changes nothing but to acknowledge again; from REG = 0x7F in
Scramble mode two `BYTE 0x00` answer 0x0E and then 0xF2. -/
def Obligations.InitIsIdempotentByteIsNot : Prop :=
  (∀ (d : Mode) (seed : Reg) (s : State), ∃ t, exec (.init d seed) s = .next t ∧
    exec (.init d seed) t = .next { t with responses := t.responses ++ [.ack] }) ∧
  (∀ s : State, s.valid = true → s.mode = .scramble → s.reg = 0x7F →
    ∃ t u, exec (.byte 0x00) s = .next t ∧ exec (.byte 0x00) t = .next u ∧
      u.responses = s.responses ++ [.data 0x0E, .data 0xF2] ∧ u.reg ≠ t.reg)

/-! ### The step -/

/-- A step runs the decoded command: the oldest pending word, when it decodes, is taken off and run; so is a word given through
`withFetchWord` (R11, R50, R60). -/
def Obligations.StepRunsTheDecodedCommand : Prop :=
  (∀ (s : State) (w : Word) (rest : List HostCall) (i : Instr), s.Ready → s.pending = .command w :: rest →
    decode w = .ok i → i.wellFormed = true → step s = exec i { s with pending := rest }) ∧
  (∀ (s : State) (nbits w : Nat) (i : Instr), s.Ready → decodeTableWord nbits w = some i →
    step (s.withFetchWord nbits w) = exec i s)

/-- R144: a word the decoder does not decode, that is one with OP = 11 or a nonzero reserved bit, is refused as ReservedEncoding,
whatever VALID is. -/
def Obligations.ReservedWordsAreRefused : Prop :=
  (∀ w : Word, (∀ i, decode w ≠ .ok i) ↔
    (w.extractLsb' 14 2 = 0b11#2 ∨ (w.extractLsb' 14 2 = 0b01#2 ∧ w.extractLsb' 1 13 ≠ 0#13) ∨
      (w.extractLsb' 14 2 ≠ 0b01#2 ∧ w.extractLsb' 8 6 ≠ 0#6))) ∧
  (∀ (s : State) (w : Word) (rest : List HostCall), s.Ready → s.pending = .command w :: rest →
    (∀ i, decode w ≠ .ok i) → step s = .refused (.reservedEncoding w))

/-- A BIT, a BYTE, or a PROCESS with n > 0 while VALID = 0 faults with NotInitialised, recording the call (R142, R146); REG, MODE,
VALID and the responses are as before (R149). That the call is off the queue afterwards is the model's choice (log 15). -/
def Obligations.DataBeforeConstructionFaults : Prop :=
  ∀ (s : State) (rest : List HostCall), s.Ready → s.valid = false →
    (∀ (w : Word) (b : Bool), s.pending = .command w :: rest → decode w = .ok (.bit b) →
      step s = .fault (.notInitialised (.command w) { s with pending := rest, fault := some .notInitialised })) ∧
    (∀ (w : Word) (data : Byte), s.pending = .command w :: rest → decode w = .ok (.byte data) →
      step s = .fault (.notInitialised (.command w) { s with pending := rest, fault := some .notInitialised })) ∧
    (∀ (n : Nat) (bytesIn : List Byte), s.pending = .process n bytesIn :: rest → 0 < n → bytesIn.length = n →
      step s = .fault (.notInitialised (.process n bytesIn) { s with pending := rest, fault := some .notInitialised }))

/-- A PROCESS whose claimed length differs from its buffer's faults with LengthMismatch before any byte, whatever VALID is,
recording n and m (R143, R146, R147); REG, MODE, VALID and the responses are as before (R149). That the call is off the queue
afterwards is the model's choice (log 15). -/
def Obligations.LengthMismatchFaults : Prop :=
  ∀ (s : State) (n : Nat) (bytesIn : List Byte) (rest : List HostCall), s.Ready →
    s.pending = .process n bytesIn :: rest → bytesIn.length ≠ n →
    step s = .fault (.lengthMismatch n bytesIn.length { s with pending := rest, fault := some .lengthMismatch })

/-- A PROCESS of zero bytes is a no-op, constructed or not (R106; V-P1, V-P2). That it takes a step of its own and is given no
response is the model's choice (log 6). -/
def Obligations.EmptyProcessIsANoOp : Prop :=
  ∀ (s : State) (rest : List HostCall), s.Ready → s.pending = .process 0 [] :: rest →
    step s = .next { s with pending := rest }

/-- The order in which outcomes are taken (R147), and that a faulted instance reports no later one. What a step of a faulted instance
answers, `noFurtherStep`, is the model's reading (log 4), and that the hosts are checked before the recorded fault is its
choice (log 8). -/
def Obligations.OutcomePriority : Prop :=
  (∀ s : State, 2 ≤ s.hosts → step s = .refused (.concurrentUse s)) ∧
  (∀ (s : State) (r : FaultReason), s.hosts < 2 → s.fault = some r → step s = .fault (.noFurtherStep r s)) ∧
  (∀ (s : State) (w : Word) (e : DecodeRefusal) (rest : List HostCall), s.Ready → s.pending = .command w :: rest →
    decode w = .error e → step s = .refused (.reservedEncoding w)) ∧
  (∀ (s : State) (n : Nat) (bytesIn : List Byte) (rest : List HostCall), s.Ready →
    s.pending = .process n bytesIn :: rest →
    (bytesIn.length ≠ n → ∃ u, step s = .fault (.lengthMismatch n bytesIn.length u)) ∧
    (bytesIn.length = n → 0 < n → s.valid = false →
      ∃ u, step s = .fault (.notInitialised (.process n bytesIn) u)))

/-- R145: one host per instance from power-on, never changed by a step; with two or more, the instance is refused as
ConcurrentUse and has no run. -/
def Obligations.ConcurrentUseHasNoRun : Prop :=
  State.reset.hosts = 1 ∧ (∀ s t : State, step s = .next t → t.hosts = s.hosts) ∧
  (∀ (s : State) (n : Nat), 2 ≤ s.hosts →
    step s = .refused (.concurrentUse s) ∧ observeRun (n + 1) s = ⟨s.responses, .refused .concurrentUse⟩)

/-- R149: a fault changes nothing except FAULT, which it sets to its reason: REG, MODE and VALID are as before the call, no
response is given, and the only call gone from the queue is the one that faulted; and the faulted state is never the successful
end of a run. -/
def Obligations.FaultChangesOnlyFault : Prop :=
  ∀ (s : State) (f : Fault), step s = .fault f →
    f.after = { s with fault := some f.reason, pending := f.after.pending } ∧
    (f.after.pending = s.pending ∨ ∃ c, s.pending = c :: f.after.pending) ∧
    (∀ n, observeRun n f.after = ⟨s.responses, .fault f.reason⟩)

/-- R150: no step clears FAULT, INIT included, and a faulted or refused instance takes no further step, whatever its host issues
afterwards. -/
def Obligations.FaultedOrRefusedTakesNoFurtherStep : Prop :=
  (∀ (i : Instr) (s t : State), exec i s = .next t → t.fault = s.fault) ∧
  (∀ s t : State, step s = .next t → t.fault = s.fault) ∧
  (∀ (s : State) (f : Fault) (calls : List HostCall) (t : State), step s = .fault f →
    step { f.after with pending := f.after.pending ++ calls } ≠ .next t) ∧
  (∀ (s : State) (r : Refusal) (calls : List HostCall) (t : State), step s = .refused r →
    step { s with pending := s.pending ++ calls } ≠ .next t)

/-- Commands take effect in the order issued (R50): issuing one more call behind those pending changes nothing about the
step at hand. -/
def Obligations.LaterCallsWaitTheirTurn : Prop :=
  ∀ (s t : State) (c : HostCall), s.pending ≠ [] → step s = .next t → step (s.issue c) = .next (t.issue c)

/-- Between commands the state is kept for any length of time (R157): with nothing pending a step leaves every instance as it is,
and an instance that can step idles for any number of steps. -/
def Obligations.IdleKeepsTheState : Prop :=
  (∀ s : State, s.pending = [] → outcomeState s (step s) = s) ∧
  (∀ (s : State) (n : Nat), s.Ready → s.pending = [] → run n s = .next s)

/-- Every admitted call completes, faults or is refused; none blocks (R141, 93_implementation_defined.md): each step does one
unit of the work pending, so a run given that many steps is not unfinished. The unit, one step a command and one more for
each PROCESS call, is the model's choice (log 6). -/
def Obligations.EveryRunComesToItsEnd : Prop :=
  (∀ s t : State, step s = .next t → s.pending ≠ [] → t.workLeft + 1 = s.workLeft) ∧
  (∀ s : State, (observeRun s.workLeft s).ending ≠ .unfinished)

/-- A run is safe exactly when its host keeps its duties (R141, R172, R175, R181): on an instance that can step, every call is done,
with no fault and no refusal, if and only if every word is a command, data comes after construction, and every claimed
length is right. -/
def Obligations.SafeRunsAreTheLegalOnes : Prop :=
  ∀ s : State, s.Ready → (SafeRun s ↔ legalCalls s.valid s.pending = true)

/-- A safe run answers each command once, and a PROCESS with one byte per byte (R43, R69, R100): nothing is dropped and nothing
added, and the responses given before stand. -/
def Obligations.SafeRunsAnswerEveryCommandOnce : Prop :=
  ∀ s : State, SafeRun s →
    ∃ rs : List Response, (observeRun s.workLeft s).responses = s.responses ++ rs ∧
      rs.length = (s.pending.map HostCall.answers).sum

/-- The power-on state holds the invariant. -/
def Obligations.PowerOnHoldsTheInvariant : Prop := State.reset.Inv

/-- Every step keeps the invariant: unfaulted, one host at most, silent before construction, INIT's acknowledgement the first
answer (R27, R28, R69, R142, R145). -/
def Obligations.StepKeepsTheInvariant : Prop :=
  ∀ s t : State, s.Inv → step s = .next t → t.Inv

/-- Power-on (R170), as far as the spec gives it values: VALID = 0 and FAULT = none; a first BIT or BYTE faults with
NotInitialised. -/
def Obligations.PowerOnState : Prop :=
  State.reset.valid = false ∧ State.reset.fault = none ∧
  (∀ (i : Instr), (∀ d seed, i ≠ .init d seed) → ∃ u, step { State.reset with pending := [.command (encode i)] } =
    .fault (.notInitialised (.command (encode i)) u))

/-- REG and MODE hold no value before construction (R21, R23, R142, R170): whatever the model keeps in them there (DESIGN CHOICE, log 1), no host
can observe it, over a run of any length. -/
def Obligations.PowerOnRegistersAreNeverObserved : Prop :=
  ∀ (s : State) (r : Reg) (m : Mode) (n : Nat), s.valid = false →
    observeRun n { s with reg := r, mode := m } = observeRun n s

/-! ### Laws of the engine -/

/-- R22: after n engine steps, `REG[j]` is the bit inserted at step n-1-j, or the seed's bit j-n while n <= j. -/
def Obligations.RegisterHoldsTheInsertedBits : Prop :=
  ∀ (mode : Mode) (seed : Reg) (xs : List Bool) (j : Nat), j < 7 →
    (insertedBits mode seed xs).length = xs.length ∧
    (j < xs.length →
      (insertedBits mode seed xs)[xs.length - 1 - j]? = some ((engineRun mode seed xs).1.getLsbD j)) ∧
    (xs.length ≤ j → (engineRun mode seed xs).1.getLsbD j = seed.getLsbD (j - xs.length))

/-- R89: the recurrence `y_t = x_t ^ s_(t-4) ^ s_(t-7)`, with the seed as the history before step 0 and s_t the output or the input
bit by mode; REG before step t as `{s_(t-7), ..., s_(t-1)}`; and REG after at least 7 steps as the last 7 outputs in Scramble mode,
the last 7 inputs in Descramble mode. Index `u + 7` of the list `hist` is `s_u`. -/
def Obligations.OutputRecurrence : Prop :=
  (∀ (mode : Mode) (seed : Reg) (xs : List Bool) (t : Nat) (x : Bool), xs[t]? = some x →
    let hist := seedHistory seed ++ (if mode = .scramble then (engineRun mode seed xs).2 else xs)
    (∃ a b, hist[t + 3]? = some a ∧ hist[t]? = some b ∧ (engineRun mode seed xs).2[t]? = some ((x ^^ a) ^^ b)) ∧
    (∀ j, j < 7 → hist[t + 6 - j]? = some ((engineRun mode seed (xs.take t)).1.getLsbD j))) ∧
  (∀ (seed : Reg) (j : Nat), j < 7 → (seedHistory seed)[6 - j]? = some (seed.getLsbD j)) ∧
  (∀ (mode : Mode) (seed : Reg) (xs : List Bool) (j : Nat), j < 7 → 7 ≤ xs.length →
    (if mode = .scramble then (engineRun mode seed xs).2 else xs)[xs.length - 1 - j]? =
      some ((engineRun mode seed xs).1.getLsbD j))

/-- R90: self-synchronisation. From the 8th bit on a descrambler of any seed gives the scrambler's input; before that the error is
`e[3-t] ^ e[6-t]`, e the difference of the seeds; and one that joins before bit m gives it from bit m+7 on. -/
def Obligations.SelfSynchronisation : Prop :=
  ∀ (seedS seedD : Reg) (xs : List Bool) (t : Nat) (x : Bool), xs[t]? = some x →
    let ys := (engineRun .scramble seedS xs).2
    let zs := (engineRun .descramble seedD ys).2
    let e := seedS ^^^ seedD
    (7 ≤ t → zs[t]? = some x) ∧
    (t < 7 → ∃ z, zs[t]? = some z ∧
      (z ^^ x) = ((if t ≤ 3 then e.getLsbD (3 - t) else false) ^^ e.getLsbD (6 - t))) ∧
    (seedS = seedD → zs[t]? = some x) ∧
    (∀ m, m + 7 ≤ t → (engineRun .descramble seedD (ys.drop m)).2[t - m]? = some x)

/-- R92: with one seed, the descrambler fed the scrambler's output gives back its input, both registers equal after every bit (the
bits may be any number); and so for two instances and PROCESS, for every byte sequence. -/
def Obligations.SeedMatchedRoundTrip : Prop :=
  (∀ (seed : Reg) (xs : List Bool),
    engineRun .descramble seed (engineRun .scramble seed xs).2 = ((engineRun .scramble seed xs).1, xs)) ∧
  (∀ (a b : State) (bytes : List Byte), a.valid = true → b.valid = true → a.mode = .scramble → b.mode = .descramble →
    a.reg = b.reg →
    ∃ (a' b' : State) (ys : List Byte), processTransaction bytes.length bytes a = .ok (a', ys) ∧
      processTransaction ys.length ys b = .ok (b', bytes) ∧ b'.reg = a'.reg)

/-- R93: in Scramble mode the step is a bijection on REG with the inverse the rule gives; two scramblers in different states fed the
same bits never meet, and their outputs' difference follows `d_t = d_(t-4) ^ d_(t-7)` and never has 7 zeros in a row; in
Descramble mode REG[6] is lost, so the step is not injective, and any 7 bits bring any two descramblers together. -/
def Obligations.ScramblersNeverMeetDescramblersDo : Prop :=
  (∀ x : Bool, Function.Bijective fun reg : Reg => (engineStep .scramble reg x).1) ∧
  (∀ (reg : Reg) (x : Bool), let r' := (engineStep .scramble reg x).1
    reg.extractLsb' 0 6 = r'.extractLsb' 1 6 ∧ reg.getLsbD 6 = ((r'.getLsbD 0 ^^ x) ^^ r'.getLsbD 4)) ∧
  (∀ (r₁ r₂ : Reg) (xs : List Bool), r₁ ≠ r₂ →
    let d := List.zipWith xor (engineRun .scramble r₁ xs).2 (engineRun .scramble r₂ xs).2
    (engineRun .scramble r₁ xs).1 ≠ (engineRun .scramble r₂ xs).1 ∧
    (∀ t, t + 7 < xs.length → ∃ a b, d[t + 3]? = some a ∧ d[t]? = some b ∧ d[t + 7]? = some (a ^^ b)) ∧
    (∀ t, t + 7 ≤ xs.length → ∃ k, k < 7 ∧ d[t + k]? = some true)) ∧
  (∀ (reg : Reg) (x : Bool), (engineStep .descramble reg x).1 = reg.extractLsb' 0 6 ++ BitVec.ofBool x) ∧
  (∀ x : Bool, ¬ Function.Injective fun reg : Reg => (engineStep .descramble reg x).1) ∧
  (∀ (r₁ r₂ : Reg) (xs : List Bool), xs.length = 7 →
    (engineRun .descramble r₁ xs).1 = (engineRun .descramble r₂ xs).1)

/-- The effect of a disturbance (R177), seen as two runs that agree again from some point on: descramblers in any two states, fed the
same bits, agree in every output from the 8th bit on; scramblers in different states differ in at least one of any 7
consecutive output bits, and in equal states agree for ever. -/
def Obligations.DisturbanceEndsInDescrambleOnly : Prop :=
  (∀ (r₁ r₂ : Reg) (xs : List Bool),
    (engineRun .descramble r₁ xs).2.drop 7 = (engineRun .descramble r₂ xs).2.drop 7) ∧
  (∀ (r₁ r₂ : Reg) (xs : List Bool) (t : Nat), t + 7 ≤ xs.length →
    ((((engineRun .scramble r₁ xs).2.drop t).take 7 = ((engineRun .scramble r₂ xs).2.drop t).take 7) ↔ r₁ = r₂))

/-- R94: the fixed points, the all-zero stream, the cycle of 127 states from 0x7F with its first 16 bytes, and the output when the
taps agree or differ. -/
def Obligations.EngineCornerCases : Prop :=
  (∀ mode, engineStep mode 0x00 false = (0x00, false)) ∧
  (∀ n, engineRun .scramble 0x00 (List.replicate n false) = (0x00, List.replicate n false)) ∧
  (∀ mode, engineStep mode 0x7F true = (0x7F, true)) ∧
  (engineRun .scramble 0x7F (List.replicate 127 false)).1 = 0x7F ∧
  (∀ n, n < 127 → 0 < n → (engineRun .scramble 0x7F (List.replicate n false)).1 ≠ 0x7F) ∧
  (∀ r : Reg, r ≠ 0 → ∃ n, n < 127 ∧ (engineRun .scramble 0x7F (List.replicate n false)).1 = r) ∧
  (adapterRun .msbFirst .scramble 0x7F (List.replicate 16 0x00)).2 =
    [0x0E, 0xF2, 0xC9, 0x02, 0x26, 0x2E, 0xB6, 0x0C, 0xD4, 0xE7, 0xB4, 0x2A, 0xFA, 0x51, 0xB8, 0xFE] ∧
  (∀ mode (reg : Reg) x, reg.getLsbD 3 = reg.getLsbD 6 → (engineStep mode reg x).2 = x) ∧
  (∀ mode (reg : Reg) x, reg.getLsbD 3 ≠ reg.getLsbD 6 → (engineStep mode reg x).2 = !x)

/-- The engine is linear over GF(2) (R88): running on the sum of two registers and of two equally long bit streams gives the sum of
the two runs. -/
def Obligations.EngineIsLinear : Prop :=
  ∀ (mode : Mode) (xs xs' : List Bool) (r r' : Reg), xs.length = xs'.length →
    engineRun mode (r ^^^ r') (List.zipWith xor xs xs') =
      ((engineRun mode r xs).1 ^^^ (engineRun mode r' xs').1,
        List.zipWith xor (engineRun mode r xs).2 (engineRun mode r' xs').2)

/-! ### Laws of the adapter and of PROCESS -/

/-- R109: after one BYTE the register is OUT[6:0] in Scramble mode and DATA[6:0] in Descramble mode, whatever it was. -/
def Obligations.RegisterAfterAByte : Prop :=
  ∀ (data : Byte) (s : State), s.valid = true → ∃ (out : Byte) (t : State), exec (.byte data) s = .next t ∧
    t.responses = s.responses ++ [.data out] ∧
    t.reg = if s.mode = .scramble then out.extractLsb' 0 7 else data.extractLsb' 0 7

/-- R110: BYTE leaves the REG that the eight BITs `DATA[7]` to `DATA[0]` leave, and its response holds their response bits, the
first in bit 7. -/
def Obligations.ByteIsEightBits : Prop :=
  ∀ (data : Byte) (s : State), s.Ready → s.valid = true →
    ∃ (t u : State) (out : Byte), exec (.byte data) s = .next t ∧ t.responses = s.responses ++ [.data out] ∧
      run 8 { s with pending :=
        ([7, 6, 5, 4, 3, 2, 1, 0].map (fun j => .command (encode (.bit (data.getLsbD j))))) } = .next u ∧
      u.reg = t.reg ∧ u.responses = s.responses ++
        [7, 6, 5, 4, 3, 2, 1, 0].map (fun j => .data ((BitVec.ofBool (out.getLsbD j)).setWidth 8))

/-- R104: the bit-serial adapter, after its eight micro-steps, shows the REG and the response of BYTE, with K back at 0. -/
def Obligations.SerialAdapterAgreesWithByte : Prop :=
  ∀ (data : Byte) (s : State), s.valid = true →
    let m := serialRun 8 (serialLoad s.mode s.reg data)
    m.k = 0 ∧ exec (.byte data) s = .next { s with reg := m.reg, responses := s.responses ++ [.data m.acc] }

/-- BIT and BYTE may be interleaved, and the block counts no bits (R44, R45, R179): a sequence of data commands passes the
concatenation of their bits through the engine, and its responses carry the engine's outputs in order. -/
def Obligations.MixedWidthStream : Prop :=
  ∀ (is : List Instr) (s : State), s.Ready → s.valid = true → (∀ i ∈ is, ∀ d seed, i ≠ .init d seed) →
    s.pending = is.map (fun i => .command (encode i)) →
    let engine := engineRun s.mode s.reg (is.flatMap inputBits)
    ∃ rs : List Response, rs.length = is.length ∧
      run is.length s =
        .next { s with reg := engine.1, pending := [], responses := s.responses ++ rs } ∧
      (List.zipWith outputBits is rs).flatten = engine.2

/-- LSB first is MSB first on reversed bytes, and it is not this hardware's order (R111, R112). -/
def Obligations.LsbFirstIsMsbFirstReversed : Prop :=
  Config.bitOrder = .msbFirst ∧
  (∀ (b : Byte) (i : Nat), i < 8 → (rev8 b).getLsbD i = b.getLsbD (7 - i)) ∧
  (∀ (mode : Mode) (reg : Reg) (b : Byte), adapterByte .lsbFirst mode reg b =
    ((adapterByte .msbFirst mode reg (rev8 b)).1, rev8 (adapterByte .msbFirst mode reg (rev8 b)).2)) ∧
  (∀ (mode : Mode) (reg : Reg) (b : Byte) (k : Nat), k < 8 →
    (engineRun mode reg (bitsMsbFirst b).reverse).2[k]? = some ((adapterByte .lsbFirst mode reg b).2.getLsbD k))

/-- R106: taking a PROCESS call and then its bytes, one step each, is R106's transaction: the same fault, or the same register and
the output buffer as the responses. That the call is spread over n+1 steps is the model's choice (log 6), and so is that the
call is off the queue after a fault (log 15). -/
def Obligations.ProcessIsTheTransaction : Prop :=
  ∀ (s : State) (n : Nat) (bytesIn : List Byte) (rest : List HostCall), s.Ready →
    s.pending = .process n bytesIn :: rest →
    match processTransaction n bytesIn { s with pending := rest } with
    | .error f => step s = .fault f
    | .ok (t, out) => out.length = n ∧ t = { s with pending := rest, reg := t.reg } ∧
        run (n + 1) s = .next { t with responses := s.responses ++ out.map .data }

/-- R107: a PROCESS of n bytes with a matching claim gives exactly n bytes, for n = 0 none, constructed or not; and the bytes are
BYTE's, folded over the input from the register the instance holds. -/
def Obligations.ProcessPreservesLength : Prop :=
  (∀ (s : State) (bytesIn : List Byte), (s.valid = true ∨ bytesIn = []) →
    ∃ (t : State) (out : List Byte), processTransaction bytesIn.length bytesIn s = .ok (t, out) ∧
      out.length = bytesIn.length ∧ adapterRun .msbFirst s.mode s.reg bytesIn = (t.reg, out)) ∧
  (∀ (s t : State) (n : Nat) (bytesIn out : List Byte), processTransaction n bytesIn s = .ok (t, out) →
    bytesIn.length = n ∧ out.length = n)

/-- R108: PROCESS of X1 and then of X2 on one instance gives the outputs of PROCESS of X1 ++ X2, concatenated, and leaves the same
instance. -/
def Obligations.ChunkingTransparency : Prop :=
  ∀ (s : State) (xs ys : List Byte), s.valid = true →
    ∃ (t u : State) (out₁ out₂ : List Byte), processTransaction xs.length xs s = .ok (t, out₁) ∧
      processTransaction ys.length ys t = .ok (u, out₂) ∧
      processTransaction (xs ++ ys).length (xs ++ ys) s = .ok (u, out₁ ++ out₂)

/-- Chunking transparency over the machine's own steps: the two calls, and the one call, run to the same state, with one response per
byte. That a call of n bytes takes n+1 steps is the model's choice (log 6). -/
def Obligations.ChunkedRunsEndAlike : Prop :=
  ∀ (s : State) (xs ys : List Byte), s.Ready → s.valid = true →
    ∃ t : State, t.pending = [] ∧ t.responses.length = s.responses.length + xs.length + ys.length ∧
      run (xs.length + ys.length + 2)
        { s with pending := [.process xs.length xs, .process ys.length ys] } = .next t ∧
      run ((xs ++ ys).length + 1)
        { s with pending := [.process (xs ++ ys).length (xs ++ ys)] } = .next t

/-- R43: one output byte per input byte, and output byte i depends on input bytes 0..i alone: whatever follows a prefix, the
prefix's outputs are the same. -/
def Obligations.OutputDependsOnEarlierBytesAlone : Prop :=
  ∀ (order : BitOrder) (mode : Mode) (reg : Reg) (xs ys : List Byte),
    (adapterRun order mode reg (xs ++ ys)).2.length = (xs ++ ys).length ∧
    (adapterRun order mode reg (xs ++ ys)).2.take xs.length = (adapterRun order mode reg xs).2

/-- The startup transient byte by byte (R176): after a scrambler and a descrambler of any two seeds, every byte but the first is
exact, bit 0 of the first is exact, and bits 7..1 of the first err by R90's pattern. -/
def Obligations.StartupTransientIsInTheFirstByte : Prop :=
  ∀ (seedS seedD : Reg) (b : Byte) (bs : List Byte),
    let ys := (adapterRun .msbFirst .scramble seedS (b :: bs)).2
    let e := seedS ^^^ seedD
    ∃ z : Byte, (adapterRun .msbFirst .descramble seedD ys).2 = z :: bs ∧ z.getLsbD 0 = b.getLsbD 0 ∧
      (∀ i, 1 ≤ i → i ≤ 7 →
        (z.getLsbD i ^^ b.getLsbD i) = ((if 4 ≤ i then e.getLsbD (i - 4) else false) ^^ e.getLsbD (i - 1)))

/-! ### Several instances -/

/-- R54: a step or a call to one instance changes nothing in another, and the order between them does not matter; what an
instance becomes depends on itself alone. -/
def Obligations.InstancesAreIndependent : Prop :=
  ∀ (sys : System) (k j : Nat) (c : HostCall),
    ((sys.stepAt k).instances[k]? = sys.instances[k]?.map fun s => outcomeState s (step s)) ∧
    (j ≠ k → (sys.stepAt k).instances[j]? = sys.instances[j]? ∧ (sys.issueAt k c).instances[j]? = sys.instances[j]? ∧
      (sys.stepAt k).stepAt j = (sys.stepAt j).stepAt k ∧ (sys.stepAt k).issueAt j c = (sys.issueAt j c).stepAt k)
end

