-- ==== Sys2Proof/Laws/State.lean ====
section
/-! SUPPORT. Each named update of `State`, field by field, so that no proof unfolds a record update. -/

namespace Sys2Proof.Machine

section SetReg
variable (r : Reg) (s : State)
@[simp] theorem State.setReg_reg : (s.setReg r).reg = r := rfl
@[simp] theorem State.setReg_mode : (s.setReg r).mode = s.mode := rfl
@[simp] theorem State.setReg_valid : (s.setReg r).valid = s.valid := rfl
@[simp] theorem State.setReg_fault : (s.setReg r).fault = s.fault := rfl
@[simp] theorem State.setReg_pending : (s.setReg r).pending = s.pending := rfl
@[simp] theorem State.setReg_responses : (s.setReg r).responses = s.responses := rfl
@[simp] theorem State.setReg_hosts : (s.setReg r).hosts = s.hosts := rfl
end SetReg

section Construct
variable (d : Mode) (seed : Reg) (s : State)
@[simp] theorem State.construct_reg : (s.construct d seed).reg = seed := rfl
@[simp] theorem State.construct_mode : (s.construct d seed).mode = d := rfl
@[simp] theorem State.construct_valid : (s.construct d seed).valid = true := rfl
@[simp] theorem State.construct_fault : (s.construct d seed).fault = s.fault := rfl
@[simp] theorem State.construct_pending : (s.construct d seed).pending = s.pending := rfl
@[simp] theorem State.construct_responses : (s.construct d seed).responses = s.responses := rfl
@[simp] theorem State.construct_hosts : (s.construct d seed).hosts = s.hosts := rfl
end Construct

section Respond
variable (r : Response) (s : State)
@[simp] theorem State.respond_reg : (s.respond r).reg = s.reg := rfl
@[simp] theorem State.respond_mode : (s.respond r).mode = s.mode := rfl
@[simp] theorem State.respond_valid : (s.respond r).valid = s.valid := rfl
@[simp] theorem State.respond_fault : (s.respond r).fault = s.fault := rfl
@[simp] theorem State.respond_pending : (s.respond r).pending = s.pending := rfl
@[simp] theorem State.respond_responses : (s.respond r).responses = s.responses ++ [r] := rfl
@[simp] theorem State.respond_hosts : (s.respond r).hosts = s.hosts := rfl
end Respond

section MarkFault
variable (r : FaultReason) (s : State)
@[simp] theorem State.markFault_reg : (s.markFault r).reg = s.reg := rfl
@[simp] theorem State.markFault_mode : (s.markFault r).mode = s.mode := rfl
@[simp] theorem State.markFault_valid : (s.markFault r).valid = s.valid := rfl
@[simp] theorem State.markFault_fault : (s.markFault r).fault = some r := rfl
@[simp] theorem State.markFault_pending : (s.markFault r).pending = s.pending := rfl
@[simp] theorem State.markFault_responses : (s.markFault r).responses = s.responses := rfl
@[simp] theorem State.markFault_hosts : (s.markFault r).hosts = s.hosts := rfl
end MarkFault

section Issue
variable (c : HostCall) (s : State)
@[simp] theorem State.issue_reg : (s.issue c).reg = s.reg := rfl
@[simp] theorem State.issue_mode : (s.issue c).mode = s.mode := rfl
@[simp] theorem State.issue_valid : (s.issue c).valid = s.valid := rfl
@[simp] theorem State.issue_fault : (s.issue c).fault = s.fault := rfl
@[simp] theorem State.issue_pending : (s.issue c).pending = s.pending ++ [c] := rfl
@[simp] theorem State.issue_responses : (s.issue c).responses = s.responses := rfl
@[simp] theorem State.issue_hosts : (s.issue c).hosts = s.hosts := rfl
end Issue

section PushCommand
variable (w : Word) (s : State)
@[simp] theorem State.pushCommand_reg : (s.pushCommand w).reg = s.reg := rfl
@[simp] theorem State.pushCommand_mode : (s.pushCommand w).mode = s.mode := rfl
@[simp] theorem State.pushCommand_valid : (s.pushCommand w).valid = s.valid := rfl
@[simp] theorem State.pushCommand_fault : (s.pushCommand w).fault = s.fault := rfl
@[simp] theorem State.pushCommand_pending : (s.pushCommand w).pending = .command w :: s.pending := rfl
@[simp] theorem State.pushCommand_responses : (s.pushCommand w).responses = s.responses := rfl
@[simp] theorem State.pushCommand_hosts : (s.pushCommand w).hosts = s.hosts := rfl
end PushCommand

end Sys2Proof.Machine
end

