-- ==== Sys2Proof/Laws/Ops.lean ====
section
/-! SUPPORT. One lemma for each shared operation that says everything it can do. -/

namespace Sys2Proof.Machine

/-- The register after an engine step (R83). -/
theorem engineStep_fst (m : Mode) (r : Reg) (x : Bool) :
    (engineStep m r x).1 = shiftIn r (feedbackDriving m x (x ^^ feedback r)) := rfl

/-- The output of an engine step (R82). -/
theorem engineStep_snd (m : Mode) (r : Reg) (x : Bool) : (engineStep m r x).2 = (x ^^ feedback r) := rfl

/-- The bits of the shifted register (R83): the inserted bit, then the old bits moved up by one. -/
theorem shiftIn_getLsbD (r : Reg) (s : Bool) (j : Nat) (hj : j < 7) :
    (shiftIn r s).getLsbD j = if j = 0 then s else r.getLsbD (j - 1) := by
  revert r s
  interval_cases j <;> decide

/-- Everything the `VALID` check can do (R142). -/
theorem whenConstructed_cases (i : Instr) (s done : State) :
    (s.valid = true ∧ whenConstructed i s done = .next done) ∨
    (s.valid = false ∧
      whenConstructed i s done = .fault (.notInitialised (.command (encode i)) (s.markFault .notInitialised))) := by
  unfold whenConstructed raiseFault
  cases h : s.valid <;> simp

theorem whenConstructed_next {i : Instr} {s done t : State} (h : whenConstructed i s done = .next t) :
    s.valid = true ∧ t = done := by
  rcases whenConstructed_cases i s done with ⟨hv, e⟩ | ⟨_, e⟩ <;> rw [e] at h <;> cases h
  exact ⟨hv, rfl⟩

/-- Everything the checks of a PROCESS can do, in their order (R106, R147). -/
theorem processCheck_cases (n : Nat) (bytesIn : List Byte) (s : State) :
    (bytesIn.length ≠ n ∧
      processCheck n bytesIn s = some (.lengthMismatch n bytesIn.length (s.markFault .lengthMismatch))) ∨
    (bytesIn.length = n ∧ 0 < n ∧ s.valid = false ∧
      processCheck n bytesIn s = some (.notInitialised (.process n bytesIn) (s.markFault .notInitialised))) ∨
    (bytesIn.length = n ∧ (n = 0 ∨ s.valid = true) ∧ processCheck n bytesIn s = none) := by
  unfold processCheck raiseFault
  by_cases h : bytesIn.length = n
  · rcases Nat.eq_zero_or_pos n with h0 | h0
    · simp [h, h0]
    · cases hv : s.valid <;> simp [h, h0]
  · simp [h]

end Sys2Proof.Machine
end

