-- ==== Sys2Proof/Laws/Engine.lean ====
section
/-! SUPPORT. The engine over a stream of bits: its equations, lengths, and running over a concatenation. -/

namespace Sys2Proof.Machine

@[simp] theorem engineRun_nil (m : Mode) (r : Reg) : engineRun m r [] = (r, []) := rfl

@[simp] theorem engineRun_cons (m : Mode) (r : Reg) (x : Bool) (xs : List Bool) :
    engineRun m r (x :: xs) =
      ((engineRun m (engineStep m r x).1 xs).1,
        (engineStep m r x).2 :: (engineRun m (engineStep m r x).1 xs).2) := rfl

/-- Running over a concatenation is running over the first part and then, from the register it leaves, over the second. -/
theorem engineRun_append (m : Mode) (r : Reg) (xs ys : List Bool) :
    engineRun m r (xs ++ ys) =
      ((engineRun m (engineRun m r xs).1 ys).1, (engineRun m r xs).2 ++ (engineRun m (engineRun m r xs).1 ys).2) := by
  induction xs generalizing r with
  | nil => rfl
  | cons x xs ih => rw [List.cons_append, engineRun_cons, ih]; simp

@[simp] theorem engineRun_length (m : Mode) (r : Reg) (xs : List Bool) : (engineRun m r xs).2.length = xs.length := by
  induction xs generalizing r with
  | nil => rfl
  | cons x xs ih => simp [ih]

@[simp] theorem insertedBits_length (m : Mode) (seed : Reg) (xs : List Bool) :
    (insertedBits m seed xs).length = xs.length := by
  cases m <;> simp [insertedBits]

/-- The inserted bits of a run that begins with one step (R83, R89). -/
theorem insertedBits_cons (m : Mode) (r : Reg) (x : Bool) (xs : List Bool) :
    insertedBits m r (x :: xs) =
      feedbackDriving m x (engineStep m r x).2 :: insertedBits m (engineStep m r x).1 xs := by
  cases m <;> rfl

end Sys2Proof.Machine
end

