-- ==== Sys2Proof/Laws/Adapter.lean ====
section
/-! SUPPORT. The adapter as the engine over a byte's bits (R101 to R103), and over a stream of bytes (R108). -/

namespace Sys2Proof.Machine

/-- The bits of a packed byte are the eight bits packed, the first in bit 7 (R102). -/
theorem bitsMsbFirst_packMsbFirst {ys : List Bool} (h : ys.length = 8) : bitsMsbFirst (packMsbFirst ys) = ys := by
  match ys, h with
  | [a, b, c, d, e, f, g, h], _ => revert a b c d e f g h; decide

/-- A byte is its bits packed. -/
theorem packMsbFirst_bitsMsbFirst (b : Byte) : packMsbFirst (bitsMsbFirst b) = b := by
  revert b
  decide

/-- Placing eight output bits in turn packs them (R102). -/
theorem placeBit_eight (a b c d e f g h : Bool) :
    placeBit .msbFirst (placeBit .msbFirst (placeBit .msbFirst (placeBit .msbFirst (placeBit .msbFirst
      (placeBit .msbFirst (placeBit .msbFirst (placeBit .msbFirst 0 0 a) 1 b) 2 c) 3 d) 4 e) 5 f) 6 g) 7 h =
      packMsbFirst [a, b, c, d, e, f, g, h] := by
  revert a b c d e f g h
  decide

/-- One byte, MSB first, is the engine over its eight bits, the outputs packed in order (R103). -/
theorem adapterByte_msbFirst (m : Mode) (r : Reg) (data : Byte) :
    adapterByte .msbFirst m r data =
      ((engineRun m r (bitsMsbFirst data)).1, packMsbFirst (engineRun m r (bitsMsbFirst data)).2) := by
  simp only [bitsMsbFirst, engineRun_cons, engineRun_nil]
  rw [← placeBit_eight]
  rfl

@[simp] theorem adapterRun_nil (o : BitOrder) (m : Mode) (r : Reg) : adapterRun o m r [] = (r, []) := rfl

@[simp] theorem adapterRun_cons (o : BitOrder) (m : Mode) (r : Reg) (b : Byte) (bs : List Byte) :
    adapterRun o m r (b :: bs) =
      ((adapterRun o m (adapterByte o m r b).1 bs).1,
        (adapterByte o m r b).2 :: (adapterRun o m (adapterByte o m r b).1 bs).2) := rfl

/-- The outputs of a run, as bits, are the engine's over the bits of its bytes. -/
theorem adapterRun_msbFirst_bits (m : Mode) (r : Reg) (bs : List Byte) :
    ((adapterRun .msbFirst m r bs).1, (adapterRun .msbFirst m r bs).2.flatMap bitsMsbFirst) =
      engineRun m r (bs.flatMap bitsMsbFirst) := by
  induction bs generalizing r with
  | nil => rfl
  | cons b bs ih =>
    rw [List.flatMap_cons, engineRun_append, ← ih, adapterRun_cons, adapterByte_msbFirst, List.flatMap_cons,
      bitsMsbFirst_packMsbFirst (by rw [engineRun_length]; rfl)]

end Sys2Proof.Machine
end

