-- ==== Sys2Proof/Laws/Assembler.lean ====
section
/-! SUPPORT. The assembler reads back the digits the disassembler prints (R71). -/

namespace Sys2Proof.Machine

/-- A printed hexadecimal digit has the value it was printed for. -/
theorem digitValue_hexDigit {n : Nat} (h : n < 16) : digitValue 16 (hexDigit n) = some n := by
  interval_cases n <;> decide

/-- Reading a printed digit multiplies what was read before by 16 and adds the digit. -/
theorem readDigits_hexDigit {n : Nat} (h : n < 16) (cs : List Char) (acc : Nat) :
    readDigits 16 (hexDigit n :: cs) acc = readDigits 16 cs (16 * acc + n) := by
  rw [readDigits, digitValue_hexDigit h]

end Sys2Proof.Machine
end

