-- ==== Sys2Proof/Laws/Decode.lean ====
section
/-! SUPPORT. Small laws of the decoder and the encoder. -/

namespace Sys2Proof

@[simp] theorem Mode.ofBit_toBit (m : Mode) : Mode.ofBit m.toBit = m := by cases m <;> rfl
@[simp] theorem Mode.toBit_ofBit (b : Bool) : (Mode.ofBit b).toBit = b := by cases b <;> rfl

/-- A refused word is recorded as it stands (R146). -/
theorem decode_error {w : Word} {e : DecodeRefusal} (h : decode w = .error e) : e = .reservedEncoding w := by
  unfold decode at h
  repeat' split at h
  all_goals first | cases h; rfl | cases h

/-- No two rows of the opcode map share a word (R70): two rows' patterns differ on bits both masks fix. -/
theorem opcodeMap_rows_disjoint :
    opcodeMap.Pairwise fun a b => a.pattern &&& (a.mask &&& b.mask) ≠ b.pattern &&& (a.mask &&& b.mask) := by
  decide

/-- What a legal word decodes to, by its operation field (R61, R66). -/
theorem decode_ok_cases {w : Word} {i : Instr} (h : decode w = .ok i) :
    (w.getLsbD 15 = false ∧ w.getLsbD 14 = false ∧ reserved13to8 w = 0 ∧ i = .init (fieldD w) (fieldSeed w)) ∨
    (w.getLsbD 15 = false ∧ w.getLsbD 14 = true ∧ reserved13to1 w = 0 ∧ i = .bit (fieldB w)) ∨
    (w.getLsbD 15 = true ∧ w.getLsbD 14 = false ∧ reserved13to8 w = 0 ∧ i = .byte (fieldData w)) := by
  unfold decode at h
  split at h <;> (try split at h) <;> simp_all

end Sys2Proof
end

