-- ==== Sys2Proof/Laws/PerInstr.lean ====
section
/-! SUPPORT. The family `OpcodeRow`: each instruction's word is a word of its row of the opcode map (R70). -/

namespace Sys2Proof.Laws.OpcodeRow

/-- The word of an instruction agrees with its row's match under its row's mask, and the row is in the map (R70). -/
def Statement (i : Instr) : Prop := encode i &&& i.row.mask = i.row.pattern ∧ i.row ∈ opcodeMap

theorem init (d : Mode) (seed : Reg) : Statement (.init d seed) := by
  refine ⟨?_, List.mem_cons_self⟩
  revert seed
  cases d <;> decide

theorem bit (b : Bool) : Statement (.bit b) := by
  revert b
  unfold Statement
  decide

theorem byte (data : Byte) : Statement (.byte data) := by
  refine ⟨?_, by simp [Instr.row, opcodeMap]⟩
  revert data
  decide

end Sys2Proof.Laws.OpcodeRow
end

