-- ==== Sys2Proof/Laws/Step.lean ====
section
/-! SUPPORT. What `exec` and `step` can do, said once: the lemmas every statement about steps and runs is derived from. -/

namespace Sys2Proof.Machine

/-- Everything a command that is done can have done. -/
theorem exec_next_cases {i : Instr} {s t : State} (h : exec i s = .next t) :
    (∃ d seed, i = .init d seed ∧ t = (s.construct d seed).respond .ack) ∨
    (∃ b, i = .bit b ∧ s.valid = true ∧ t = s.bitStep b) ∨
    (∃ data, i = .byte data ∧ s.valid = true ∧ t = s.byteStep data) := by
  cases i with
  | init d seed => exact .inl ⟨d, seed, rfl, by cases h; rfl⟩
  | bit b => exact .inr (.inl ⟨b, rfl, whenConstructed_next h⟩)
  | byte data => exact .inr (.inr ⟨data, rfl, whenConstructed_next h⟩)

/-- A command that faults has found `VALID` = 0, and has set `FAULT` (R142, R149). -/
theorem exec_fault_cases {i : Instr} {s : State} {f : Fault} (h : exec i s = .fault f) :
    s.valid = false ∧ f = .notInitialised (.command (encode i)) (s.markFault .notInitialised) := by
  cases i with
  | init d seed => cases h
  | bit b =>
    rcases whenConstructed_cases (.bit b) s (s.bitStep b) with ⟨_, e⟩ | ⟨hv, e⟩ <;> rw [exec, execBit, e] at h <;> cases h
    exact ⟨hv, rfl⟩
  | byte data =>
    rcases whenConstructed_cases (.byte data) s (s.byteStep data) with ⟨_, e⟩ | ⟨hv, e⟩ <;>
      rw [exec, execByte, e] at h <;> cases h
    exact ⟨hv, rfl⟩

/-- No command is refused once decoded. -/
theorem exec_not_refused (i : Instr) (s : State) (r : Refusal) : exec i s ≠ .refused r := by
  cases i with
  | init d seed => exact fun h => nomatch h
  | bit b =>
    rcases whenConstructed_cases (.bit b) s (s.bitStep b) with ⟨_, e⟩ | ⟨_, e⟩ <;>
      exact fun h => nomatch (show _ = _ from e.symm.trans h)
  | byte data =>
    rcases whenConstructed_cases (.byte data) s (s.byteStep data) with ⟨_, e⟩ | ⟨_, e⟩ <;>
      exact fun h => nomatch (show _ = _ from e.symm.trans h)

theorem step_concurrent {s : State} (h : 2 ≤ s.hosts) : step s = .refused (.concurrentUse s) := by
  simp [step, stepInstance, h]

theorem step_faulted {s : State} {r : FaultReason} (hh : s.hosts < 2) (h : s.fault = some r) :
    step s = .fault (.noFurtherStep r s) := by
  simp [step, stepInstance, Nat.not_le.mpr hh, h]

/-- An instance that can step takes its oldest call. -/
theorem step_ready {s : State} (h : s.Ready) : step s = takeCall s := by
  simp [step, stepInstance, Nat.not_le.mpr h.1, h.2]

theorem step_idle {s : State} (h : s.Ready) (hp : s.pending = []) : step s = .next s := by
  rw [step_ready h, takeCall, hp]

theorem step_call {s : State} {c : HostCall} {rest : List HostCall} (h : s.Ready) (hp : s.pending = c :: rest) :
    step s = runCall c { s with pending := rest } := by
  rw [step_ready h, takeCall, hp]

theorem runCommand_ok {w : Word} {i : Instr} (h : decode w = .ok i) (s : State) : runCommand w s = exec i s := by
  rw [runCommand, h]

theorem runCommand_error {w : Word} {e : DecodeRefusal} (h : decode w = .error e) (s : State) :
    runCommand w s = .refused (.reservedEncoding w) := by
  rw [runCommand, h, decode_error h]

/-- Everything a step that answers a next state can have done: idled, run a command, constructed with the default seed, or
taken a PROCESS call. The instance was ready. -/
theorem step_next_cases {s t : State} (h : step s = .next t) :
    s.Ready ∧
    ((s.pending = [] ∧ t = s) ∨
     (∃ w i rest, s.pending = .command w :: rest ∧ decode w = .ok i ∧ exec i { s with pending := rest } = .next t) ∨
     (∃ d rest, s.pending = .newScrambler d :: rest ∧ exec (newInstr d) { s with pending := rest } = .next t) ∨
     (∃ n bytesIn rest, s.pending = .process n bytesIn :: rest ∧ bytesIn.length = n ∧ (n = 0 ∨ s.valid = true) ∧
       t = { s with pending := expandProcess bytesIn ++ rest })) := by
  by_cases hh : 2 ≤ s.hosts
  · rw [step_concurrent hh] at h; cases h
  replace hh := Nat.lt_of_not_le hh
  by_cases hf : s.fault = none
  case neg =>
    obtain ⟨r, hr⟩ := Option.ne_none_iff_exists'.mp hf
    rw [step_faulted hh hr] at h
    cases h
  have hr : s.Ready := ⟨hh, hf⟩
  refine ⟨hr, ?_⟩
  match hp : s.pending with
  | [] =>
    rw [step_idle hr hp] at h
    cases h
    exact .inl ⟨rfl, rfl⟩
  | .command w :: rest =>
    rw [step_call hr hp, runCall] at h
    cases hd : decode w with
    | error e => rw [runCommand_error hd] at h; cases h
    | ok i => exact .inr (.inl ⟨w, i, rest, rfl, hd, by rwa [runCommand_ok hd] at h⟩)
  | .newScrambler d :: rest =>
    rw [step_call hr hp] at h
    exact .inr (.inr (.inl ⟨d, rest, rfl, h⟩))
  | .process n bytesIn :: rest =>
    rw [step_call hr hp, runCall, acceptProcess] at h
    rcases processCheck_cases n bytesIn { s with pending := rest } with ⟨_, e⟩ | ⟨_, _, _, e⟩ | ⟨hl, hv, e⟩ <;>
      rw [e] at h <;> cases h
    exact .inr (.inr (.inr ⟨n, bytesIn, rest, rfl, hl, hv, rfl⟩))

@[simp] theorem run_zero (s : State) : run 0 s = .next s := rfl

/-- One step of a run that goes on. -/
theorem run_succ {s t : State} (h : step s = .next t) (n : Nat) : run (n + 1) s = run n t := by
  simp only [run, Host.Core.run, core, h]

/-- A run of a sum of steps goes on from where the first part ends. -/
theorem run_add {s t : State} (m n : Nat) (h : run m s = .next t) : run (m + n) s = run n t := by
  induction m generalizing s with
  | zero => cases h; rw [Nat.zero_add]
  | succ m ih =>
    rw [Nat.succ_add]
    cases hs : step s with
    | next s' => rw [run_succ hs] at h ⊢; exact ih h
    | fault f => simp [run, Host.Core.run, core, hs] at h
    | refused r => simp [run, Host.Core.run, core, hs] at h

end Sys2Proof.Machine
end

