-- ==== Sys2Proof/Tests/Slice0.lean ====
section
/-! SUPPORT. The model's own tests. Expected values are the spec's (95_test_vectors.md, by number) or written out from its encoding
tables (30_encoding.md). A `witness_` theorem shows that the hypotheses of an obligation are met together, clause by clause. -/

namespace Sys2Proof.Tests

open Sys2Proof.Machine

/-- A constructed instance with the given calls pending. -/
def live (mode : Mode) (reg : Reg) (calls : List HostCall) : State :=
  { State.reset with mode := mode, reg := reg, valid := true, pending := calls }

/-- An instance at power-on with the given calls pending. -/
def unborn (calls : List HostCall) : State := { State.reset with pending := calls }

/-- What a done outcome shows: the register and the last response. -/
def shown : StepOutcome → Option (Reg × Option Response)
  | .next t => some (t.reg, t.responses.getLast?)
  | .fault _ => none
  | .refused _ => none

/-- The reason of a fault and the state it leaves. -/
def faulted : StepOutcome → Option (FaultReason × State)
  | .fault f => some (f.reason, f.after)
  | .next _ => none
  | .refused _ => none

/-- The reason of a refusal. -/
def refusedFor : StepOutcome → Option RefusalReason
  | .refused r => some (refusalReason r)
  | .next _ => none
  | .fault _ => none

/-! ### Well-formedness: one ill-formed term for each check (R71) -/

theorem test_wellFormed_refuses_seed_128 : (SourceCommand.init .scramble 128).wellFormed = false := by decide
theorem test_wellFormed_refuses_bit_2 : (SourceCommand.bit 2).wellFormed = false := by decide
theorem test_wellFormed_refuses_byte_256 : (SourceCommand.byte 256).wellFormed = false := by decide
theorem test_wellFormed_refuses_process_256 : (SourceCommand.process [0, 256]).wellFormed = false := by decide
theorem test_wellFormed_takes_the_bounds : (SourceCommand.process [0, 255]).wellFormed = true ∧
    (SourceCommand.init .descramble 127).wellFormed = true ∧ (SourceCommand.bit 1).wellFormed = true := by decide

/-! ### Decoding: words written out bit by bit from the patterns of R62, R63 and R64 -/

/-- `00000000DSSSSSSS` with D = 1, SEED = 0011011. -/
theorem test_decode_init : decode 0b0000000010011011#16 = .ok (.init .descramble 0b0011011#7) := by decide
/-- `010000000000000B` with B = 1. -/
theorem test_decode_bit : decode 0b0100000000000001#16 = .ok (.bit true) := by decide
/-- `10000000XXXXXXXX` with DATA = 10100101. -/
theorem test_decode_byte : decode 0b1000000010100101#16 = .ok (.byte 0b10100101#8) := by decide
/-- Each reserved field's highest and lowest bit (E9 to E14). -/
theorem test_decode_reserved : ([0x0100, 0x2000, 0x4002, 0x6000, 0x8100, 0xA000, 0xC000, 0xFFFF] : List Word).all
    (fun w => decide (decode w = .error (.reservedEncoding w))) = true := by decide
theorem test_decodeTableWord : decodeTableWord 16 0x4000 = some (.bit false) ∧ decodeTableWord 16 0x4002 = none ∧
    decodeTableWord 8 0x1FF = some (.init .descramble 0x7F) := by decide
theorem test_opcodeMap_rows : ∀ i ∈ ([.init .scramble 0, .bit true, .byte 0xFF] : List Instr), i.row ∈ opcodeMap := by decide

/-! ### The commands -/

/-- I5: a constructed instance is replaced (R123). -/
theorem test_init_I5 : shown (exec (.init .descramble 0x1B) (live .scramble 0x6A [])) = some (0x1B, some .ack) := by decide
/-- I2 through its word. -/
theorem test_init_I2 : shown (step (State.reset.withFetchWord 16 0x00FF)) = some (0x7F, some .ack) := by decide
/-- B9 and B11: tap 3 alone is set, where the modes insert different bits. -/
theorem test_bit_B9_B11 : shown (exec (.bit false) (live .scramble 0x08 [])) = some (0x11, some (.data 0x01)) ∧
    shown (exec (.bit false) (live .descramble 0x08 [])) = some (0x10, some (.data 0x01)) := by decide
/-- B14: tap 6 alone is set and REG[6] is shifted out. -/
theorem test_bit_B14 : shown (exec (.bit true) (live .scramble 0x40 [])) = some (0x00, some (.data 0x00)) := by decide
/-- Y5, the bit order: 0x80 puts its 1 first. -/
theorem test_byte_Y5 : shown (exec (.byte 0x80) (live .scramble 0x00 [])) = some (0x09, some (.data 0x89)) := by decide
/-- Y16: Descramble mode keeps the input bits. -/
theorem test_byte_Y16 : shown (exec (.byte 0xA5) (live .descramble 0x55 [])) = some (0x25, some (.data 0x54)) := by decide

/-! ### The host's calls, faults and refusals -/

/-- V-P3. -/
theorem test_process_VP3 : processTransaction 3 [0x00, 0x11, 0x22] (live .scramble 0x7F []) =
    .ok (live .scramble 0x4B [], [0x0E, 0xE2, 0xCB]) := by decide +kernel
/-- V-P11: the length is checked before `VALID`. -/
theorem test_process_VP11 : faulted (step (unborn [.process 2 [0x00]])) =
    some (.lengthMismatch, { State.reset with fault := some .lengthMismatch }) := by decide
/-- F1: data before construction. -/
theorem test_fault_F1 : faulted (step (unborn [.command 0x8000])) =
    some (.notInitialised, { State.reset with fault := some .notInitialised }) := by decide
/-- F3: decoding is checked before `VALID`. -/
theorem test_refused_F3 : refusedFor (step (unborn [.command 0xC000])) = some .reservedEncoding := by decide
/-- F5: two hosts. -/
theorem test_refused_F5 : refusedFor (step { live .scramble 0x7F [.command 0x8000] with hosts := 2 }) = some .concurrentUse := by
  decide
/-- The codes of R146. -/
theorem test_codes : FaultReason.notInitialised.code = 1 ∧ FaultReason.lengthMismatch.code = 2 ∧
    RefusalReason.reservedEncoding.code = some "R1" ∧ RefusalReason.concurrentUse.code = some "R2" := by decide

/-! ### The other readings -/

/-- Section 2.8: the source's own vector holds LSB first with seed 0x1B, and gives F2 79 MSB first. -/
theorem test_lsbFirst_source_vector : adapterRun .lsbFirst .scramble 0x1B [0x7A, 0xBA] = (0x3F, [0x2B, 0xFD]) ∧
    adapterRun .msbFirst .scramble 0x1B [0x7A, 0xBA] = (0x79, [0xF2, 0x79]) := by decide
/-- The trace of Y7 (section 2.2) at its fifth micro-step, and its end. -/
theorem test_serial_Y7 : (serialRun 5 (serialLoad .scramble 0x7F 0x7A)).reg = 0x6E ∧
    serialRun 8 (serialLoad .scramble 0x7F 0x7A) = ⟨0x73, .scramble, 0x7A, 0, 0x73⟩ := by decide
/-- R71: a line, its number in hexadecimal, a comment; and an operand out of range. -/
theorem test_assemble_init : assembleLine ['I', 'N', 'I', 'T', ' ', 'D', ',', ' ', '0', 'x', '1', 'b', ' ', ';', 'x'] =
    some [0x009B] := by decide
theorem test_assemble_out_of_range : assembleLine ['B', 'I', 'T', ' ', '2'] = none := by decide
/-- R72: PROCESS expands to its BYTEs in order, and without operands to no command. -/
theorem test_assemble_process : assemble ['P', 'R', 'O', 'C', 'E', 'S', 'S', ' ', '1', ',', '2', '5', '5', '\n',
    'P', 'R', 'O', 'C', 'E', 'S', 'S'] = [some [0x8001, 0x80FF], some []] := by decide
/-- R71: how a refused word is printed. -/
theorem test_disassemble_reserved : disassemble 0xC00A = ['.', 'w', 'o', 'r', 'd', ' ', '0', 'x', 'C', '0', '0', 'A', ' ', ';',
    ' ', 'r', 'e', 's', 'e', 'r', 'v', 'e', 'd'] := by decide
/-- R155: an instance's fault stops that instance alone. -/
theorem test_system_fault_is_local :
    ((((System.powerOn 2).issueAt 0 (.command 0x8000)).issueAt 1 (.command 0x007F)).stepAt 0).stepAt 1 =
      ⟨[{ State.reset with fault := some .notInitialised },
        { State.reset with reg := 0x7F, valid := true, responses := [.ack] }]⟩ := by decide

/-! ### Witnesses: the encoding -/

theorem witness_DecodeOfEncode : (Instr.byte 0xFF).wellFormed = true := by decide
theorem witness_EncodeOfDecode : decode 0x80FF = .ok (.byte 0xFF) := by decide
theorem witness_DecoderTableAndCounts : BitVec.extractLsb' 14 2 0x00FF#16 = 0b00#2 ∧
    BitVec.extractLsb' 14 2 0x4001#16 = 0b01#2 ∧ BitVec.extractLsb' 14 2 0x80FF#16 = 0b10#2 ∧
    BitVec.extractLsb' 14 2 0xFFFF#16 = 0b11#2 := by decide
theorem witness_OperandsAreTheFieldsBitForBit : decode 0x00FF = .ok (.init .descramble 0x7F) ∧
    decode 0x4001 = .ok (.bit true) ∧ decode 0x8080 = .ok (.byte 0x80) := by decide
theorem witness_AssembleOfDisassemble : decode 0x0080 = .ok (.init .descramble 0x00) ∧
    decode 0xFFFF = .error (.reservedEncoding 0xFFFF) := by decide
theorem witness_SourceCommandsExpand : ∃ b ∈ [255, 256], 256 ≤ b := by decide

/-! ### Witnesses: the commands -/

theorem witness_NewConstructsWithDefaultSeed : (unborn [.newScrambler .descramble]).Ready ∧
    (unborn [.newScrambler .descramble]).pending = [.newScrambler .descramble] := by decide
theorem witness_BitRunsOneEngineStep : (live .scramble 0x08 []).valid = true ∧ (live .scramble 0x08 []).mode = .scramble ∧
    (live .scramble 0x08 []).reg = 0x08 ∧ (unborn []).valid = false ∧ (live .descramble 0x00 []).valid = true ∧
    (live .descramble 0x00 []).reg = 0x00 := by decide
theorem witness_ByteRunsEightEngineSteps : (live .scramble 0x7F []).valid = true ∧ (live .scramble 0x7F []).mode = .scramble ∧
    (live .scramble 0x7F []).reg = 0x7F ∧ (unborn []).valid = false ∧ (live .descramble 0x00 []).valid = true ∧
    (live .descramble 0x00 []).reg = 0x00 := by decide
theorem witness_ResponseForms : (∃ t, exec (.bit true) (live .scramble 0x08 []) = .next t) ∧
    (∃ t, exec (.byte 0xFF) (live .descramble 0x08 []) = .next t) ∧ (∃ t, exec (.init .scramble 0) (unborn []) = .next t) ∧
    (∃ f, step (unborn [.command 0x8000]) = .fault f) ∧ (∃ r, step (unborn [.command 0xC000]) = .refused r) :=
  ⟨⟨_, rfl⟩, ⟨_, rfl⟩, ⟨_, rfl⟩, ⟨_, rfl⟩, ⟨_, rfl⟩⟩
theorem witness_CommandFrames : (∃ t, exec (.bit true) (live .scramble 0x08 []) = .next t) ∧
    ∀ d seed, Instr.bit true ≠ .init d seed := ⟨⟨_, rfl⟩, fun _ _ h => by cases h⟩
theorem witness_OnlyInitWritesMode :
    (∃ t, exec (.init .descramble 1) (live .scramble 0 []) = .next t ∧ t.mode ≠ .scramble) ∧
    (∃ t, step (live .scramble 0 [.command 0x0081]) = .next t ∧ t.mode ≠ .scramble) ∧
    (∃ t, step (live .scramble 0 [.newScrambler .descramble]) = .next t ∧ t.mode ≠ .scramble) :=
  ⟨⟨_, rfl, by decide⟩, ⟨_, rfl, by decide⟩, ⟨_, rfl, fun h => by cases h⟩⟩
theorem witness_OnlyCommandsTouchTheInstance : (∃ t, step (live .scramble 5 [.process 1 [7]]) = .next t) ∧
    (∀ w rest, (live .scramble 5 [.process 1 [7]]).pending ≠ .command w :: rest) ∧
    (∀ d rest, (live .scramble 5 [.process 1 [7]]).pending ≠ .newScrambler d :: rest) :=
  ⟨⟨_, rfl⟩, (fun _ _ h => by cases h), (fun _ _ h => by cases h)⟩
theorem witness_ModesDifferOnlyInTheInsertedBit : (live .scramble 0x40 []).valid = true := by decide
theorem witness_InitIsIdempotentByteIsNot : (live .scramble 0x7F []).valid = true ∧ (live .scramble 0x7F []).mode = .scramble ∧
    (live .scramble 0x7F []).reg = 0x7F := by decide

/-! ### Witnesses: the step -/

theorem witness_StepRunsTheDecodedCommand : (unborn [.command 0x4001]).Ready ∧
    (unborn [.command 0x4001]).pending = [.command 0x4001] ∧ decode 0x4001 = .ok (.bit true) ∧
    (Instr.bit true).wellFormed = true ∧ State.reset.Ready ∧ decodeTableWord 16 0x80FF = some (.byte 0xFF) := by decide
theorem witness_ReservedWordsAreRefused : (unborn [.command 0xC000]).Ready ∧
    (unborn [.command 0xC000]).pending = [.command 0xC000] ∧ ∀ i, decode 0xC000 ≠ .ok i :=
  ⟨by decide, rfl, fun _ h => by cases h⟩
theorem witness_DataBeforeConstructionFaults : (unborn [.command 0x4001]).Ready ∧ (unborn [.command 0x4001]).valid = false ∧
    (unborn [.command 0x4001]).pending = [.command 0x4001] ∧ decode 0x4001 = .ok (.bit true) ∧
    (unborn [.command 0x8000]).Ready ∧ (unborn [.command 0x8000]).valid = false ∧
    (unborn [.command 0x8000]).pending = [.command 0x8000] ∧ decode 0x8000 = .ok (.byte 0x00) ∧
    (unborn [.process 1 [0]]).Ready ∧ (unborn [.process 1 [0]]).valid = false ∧
    (unborn [.process 1 [0]]).pending = [.process 1 [0]] ∧ 0 < 1 ∧ [(0 : Byte)].length = 1 := by decide
theorem witness_LengthMismatchFaults : (live .scramble 0x7F [.process 0 [5]]).Ready ∧
    (live .scramble 0x7F [.process 0 [5]]).pending = [.process 0 [5]] ∧ [(5 : Byte)].length ≠ 0 := by decide
theorem witness_EmptyProcessIsANoOp : (unborn [.process 0 []]).Ready ∧ (unborn [.process 0 []]).pending = [.process 0 []] := by
  decide
theorem witness_OutcomePriority : 2 ≤ ({ State.reset with hosts := 2 } : State).hosts ∧
    ({ State.reset with fault := some .lengthMismatch } : State).hosts < 2 ∧
    ({ State.reset with fault := some .lengthMismatch } : State).fault = some .lengthMismatch ∧
    (unborn [.command 0xC000]).Ready ∧ decode 0xC000 = .error (.reservedEncoding 0xC000) ∧
    (unborn [.process 2 [0]]).Ready ∧ (unborn [.process 2 [0]]).pending = [.process 2 [0]] ∧ [(0 : Byte)].length ≠ 2 ∧
    (unborn [.process 1 [0]]).Ready ∧ (unborn [.process 1 [0]]).pending = [.process 1 [0]] ∧
    (unborn [.process 1 [0]]).valid = false := by decide
theorem witness_ConcurrentUseHasNoRun : 2 ≤ ({ State.reset with hosts := 2 } : State).hosts ∧
    ∃ t, step (unborn [.command 0x0000]) = .next t := ⟨by decide, _, rfl⟩
theorem witness_FaultChangesOnlyFault : ∃ f, step (unborn [.command 0x8000]) = .fault f := ⟨_, rfl⟩
theorem witness_FaultedOrRefusedTakesNoFurtherStep : (∃ t, exec (.init .scramble 0) (unborn []) = .next t) ∧
    (∃ t, step (unborn [.command 0x0000]) = .next t) ∧ (∃ f, step (unborn [.command 0x8000]) = .fault f) ∧
    (∃ r, step (unborn [.command 0x8100]) = .refused r) := ⟨⟨_, rfl⟩, ⟨_, rfl⟩, ⟨_, rfl⟩, ⟨_, rfl⟩⟩
theorem witness_LaterCallsWaitTheirTurn : (unborn [.command 0x0000]).pending ≠ [] ∧
    ∃ t, step (unborn [.command 0x0000]) = .next t := ⟨by decide, _, rfl⟩
theorem witness_IdleKeepsTheState : State.reset.Ready ∧ State.reset.pending = [] := by decide
theorem witness_EveryRunComesToItsEnd : (unborn [.command 0x0000]).pending ≠ [] ∧
    ∃ t, step (unborn [.command 0x0000]) = .next t := ⟨by decide, _, rfl⟩
theorem witness_SafeRunsAreTheLegalOnes : (unborn [.command 0x007F, .process 1 [0]]).Ready ∧
    legalCalls false [.command 0x007F, .process 1 [0]] = true ∧ legalCalls false [.process 1 [0]] = false := by decide
theorem witness_SafeRunsAnswerEveryCommandOnce : SafeRun (unborn [.command 0x007F, .process 1 [0]]) := by
  unfold SafeRun; decide
theorem witness_StepKeepsTheInvariant : (unborn [.command 0x007F]).Inv ∧ ∃ t, step (unborn [.command 0x007F]) = .next t :=
  ⟨by decide, _, rfl⟩
theorem witness_PowerOnState : ∀ d seed, Instr.byte 0x00 ≠ .init d seed := fun _ _ h => by cases h
theorem witness_PowerOnRegistersAreNeverObserved : (unborn [.command 0x007F, .command 0x8000]).valid = false := by decide

/-! ### Witnesses: the laws -/

theorem witness_RegisterHoldsTheInsertedBits : 6 < 7 ∧ 6 < (List.replicate 7 true).length ∧
    (List.replicate 6 true).length ≤ 6 := by decide
theorem witness_OutputRecurrence : [true, false][1]? = some false ∧ 6 < 7 ∧ 7 ≤ (List.replicate 7 true).length := by decide
theorem witness_SelfSynchronisation : (List.replicate 8 true)[7]? = some true ∧ 7 ≤ 7 ∧
    (List.replicate 8 true)[6]? = some true ∧ 6 < 7 ∧ 0 + 7 ≤ 7 := by decide
theorem witness_SeedMatchedRoundTrip : (live .scramble 0x7F []).valid = true ∧ (live .descramble 0x7F []).valid = true ∧
    (live .scramble 0x7F []).mode = .scramble ∧ (live .descramble 0x7F []).mode = .descramble ∧
    (live .scramble 0x7F []).reg = (live .descramble 0x7F []).reg := by decide
theorem witness_ScramblersNeverMeetDescramblersDo : (0x00 : Reg) ≠ 0x40 ∧ 0 + 7 < (List.replicate 8 true).length ∧
    1 + 7 ≤ (List.replicate 8 true).length ∧ (List.replicate 7 true).length = 7 := by decide
theorem witness_DisturbanceEndsInDescrambleOnly : 0 + 7 ≤ (List.replicate 7 true).length := by decide
theorem witness_EngineCornerCases : 126 < 127 ∧ 0 < 126 ∧ (1 : Reg) ≠ 0 ∧
    (0x48 : Reg).getLsbD 3 = (0x48 : Reg).getLsbD 6 ∧ (0x08 : Reg).getLsbD 3 ≠ (0x08 : Reg).getLsbD 6 := by decide
theorem witness_EngineIsLinear : [true, false].length = [false, false].length := by decide
theorem witness_RegisterAfterAByte : (live .descramble 0x00 []).valid = true := by decide
theorem witness_ByteIsEightBits : (live .scramble 0x7F []).Ready ∧ (live .scramble 0x7F []).valid = true := by decide
theorem witness_SerialAdapterAgreesWithByte : (live .scramble 0x7F []).valid = true := by decide
theorem witness_MixedWidthStream : (live .scramble 0x7F [.command 0x4000, .command 0x8000]).Ready ∧
    (live .scramble 0x7F [.command 0x4000, .command 0x8000]).valid = true ∧
    (∀ i ∈ [Instr.bit false, .byte 0], ∀ d seed, i ≠ .init d seed) ∧
    (live .scramble 0x7F [.command 0x4000, .command 0x8000]).pending =
      [Instr.bit false, .byte 0].map (fun i => .command (encode i)) :=
  ⟨by decide, by decide, by simp, by decide⟩
theorem witness_LsbFirstIsMsbFirstReversed : 7 < 8 ∧ 0 < 8 := by decide
theorem witness_ProcessIsTheTransaction : (live .scramble 0x7F [.process 1 [0]]).Ready ∧
    (live .scramble 0x7F [.process 1 [0]]).pending = [.process 1 [0]] := by decide
theorem witness_ProcessPreservesLength : (live .scramble 0x7F []).valid = true ∧
    processTransaction 1 [0x00] (live .scramble 0x7F []) = .ok (live .scramble 0x0E [], [0x0E]) ∧
    processTransaction 0 [] (unborn []) = .ok (unborn [], []) := by decide
theorem witness_ChunkingTransparency : (live .scramble 0x7F []).valid = true := by decide
theorem witness_ChunkedRunsEndAlike : (live .scramble 0x7F []).Ready ∧ (live .scramble 0x7F []).valid = true := by decide
theorem witness_StartupTransientIsInTheFirstByte : 1 ≤ 1 ∧ 1 ≤ 7 ∧ 1 ≤ 7 ∧ 7 ≤ 7 := by decide
theorem witness_InstancesAreIndependent : (1 : Nat) ≠ 0 := by decide

end Sys2Proof.Tests
end

