-- ==== Sys2Proof/Proofs/RegisterHistory.lean ====
section
/-! PROOF. The register as a window on the bits inserted before it (R22, R89): the seed stands as seven bits before a run, each
engine step inserts one bit after them, and `REG` is the last seven. -/

namespace Sys2Proof.Machine

/-- `s_(-1-j) = SEED[j]` (R89). -/
theorem seedHistory_getElem? (seed : Reg) {j : Nat} (hj : j < 7) :
    (seedHistory seed)[6 - j]? = some (seed.getLsbD j) := by
  interval_cases j <;> rfl

@[simp] theorem seedHistory_length (seed : Reg) : (seedHistory seed).length = 7 := rfl

/-- Shifting a bit in moves the history window up by one: the oldest bit falls out in front, the new one joins behind. -/
theorem cons_seedHistory_shiftIn (seed : Reg) (b : Bool) :
    seed.getLsbD 6 :: seedHistory (shiftIn seed b) = seedHistory seed ++ [b] := by
  simp [seedHistory, shiftIn_getLsbD, -BitVec.getLsbD_eq_getElem]

/-- The history of a run that begins with one step is the oldest bit of the seed, then the history of the rest of the run. -/
theorem seedHistory_append_insertedBits_cons (m : Mode) (seed : Reg) (x : Bool) (xs : List Bool) :
    seedHistory seed ++ insertedBits m seed (x :: xs) =
      seed.getLsbD 6 :: (seedHistory (engineStep m seed x).1 ++ insertedBits m (engineStep m seed x).1 xs) := by
  rw [insertedBits_cons, ← List.cons_append, engineStep_fst, cons_seedHistory_shiftIn, engineStep_snd,
    List.append_assoc, List.singleton_append]

/-- After n engine steps `REG` is the last seven bits of the history, the most recent in `REG[0]` (R22, R89). -/
theorem history_getElem?_eq_engineRun_getLsbD (m : Mode) (seed : Reg) (xs : List Bool) {j : Nat} (hj : j < 7) :
    (seedHistory seed ++ insertedBits m seed xs)[xs.length + (6 - j)]? =
      some ((engineRun m seed xs).1.getLsbD j) := by
  induction xs generalizing seed with
  | nil =>
    rw [List.length_nil, Nat.zero_add, List.getElem?_append_left (by rw [seedHistory_length]; omega)]
    exact seedHistory_getElem? seed hj
  | cons x xs ih =>
    rw [seedHistory_append_insertedBits_cons, List.length_cons, Nat.add_right_comm, List.getElem?_cons_succ]
    exact ih (engineStep m seed x).1

/-- `REG[j]` is the bit inserted j steps before the last one, once there were that many steps (R22). -/
theorem insertedBits_getElem?_eq_engineRun_getLsbD (m : Mode) (seed : Reg) (xs : List Bool) {j : Nat} (hj : j < 7)
    (hn : j < xs.length) :
    (insertedBits m seed xs)[xs.length - 1 - j]? = some ((engineRun m seed xs).1.getLsbD j) := by
  have hidx : xs.length + (6 - j) - 7 = xs.length - 1 - j := by omega
  have hist := history_getElem?_eq_engineRun_getLsbD m seed xs hj
  rwa [List.getElem?_append_right (by rw [seedHistory_length]; omega), seedHistory_length, hidx] at hist

/-- `REG[j]` is still a bit of the seed, moved up by the number of steps, while there were at most j of them (R22). -/
theorem engineRun_getLsbD_of_length_le (m : Mode) (seed : Reg) (xs : List Bool) {j : Nat} (hj : j < 7)
    (hn : xs.length ≤ j) : (engineRun m seed xs).1.getLsbD j = seed.getLsbD (j - xs.length) := by
  have hidx : xs.length + (6 - j) = 6 - (j - xs.length) := by omega
  have hist := history_getElem?_eq_engineRun_getLsbD m seed xs hj
  rw [List.getElem?_append_left (by rw [seedHistory_length]; omega), hidx,
    seedHistory_getElem? seed (by omega)] at hist
  exact (Option.some.inj hist).symm

/-- Settles O38: `REG` is the last seven bits of the history, whose index falls among the inserted bits when j < n and in the seed
otherwise. -/
theorem registerHoldsTheInsertedBits : Obligations.RegisterHoldsTheInsertedBits := by
  intro mode seed xs j hj
  exact ⟨insertedBits_length mode seed xs,
    insertedBits_getElem?_eq_engineRun_getLsbD mode seed xs hj,
    engineRun_getLsbD_of_length_le mode seed xs hj⟩

end Sys2Proof.Machine
end

