-- ==== Sys2Proof/Proofs/AdapterStream.lean ====
section
/-! PROOF. The adapter over a stream of bytes (R43, R108): one output byte per input byte, and a run over a concatenation is a run
over its first part, then, from the register that leaves, over its second. -/

namespace Sys2Proof.Machine

@[simp] theorem adapterRun_length (o : BitOrder) (m : Mode) (r : Reg) (bs : List Byte) :
    (adapterRun o m r bs).2.length = bs.length := by
  induction bs generalizing r with
  | nil => rfl
  | cons b bs ih => rw [adapterRun_cons, List.length_cons, ih, List.length_cons]

/-- The second part of a stream sees the first through `REG` alone (R108). -/
theorem adapterRun_append (o : BitOrder) (m : Mode) (r : Reg) (xs ys : List Byte) :
    adapterRun o m r (xs ++ ys) =
      ((adapterRun o m (adapterRun o m r xs).1 ys).1,
        (adapterRun o m r xs).2 ++ (adapterRun o m (adapterRun o m r xs).1 ys).2) := by
  induction xs generalizing r with
  | nil => rfl
  | cons x xs ih => rw [List.cons_append, adapterRun_cons, ih, adapterRun_cons, List.cons_append]

/-- Settles O55: the output for `xs ++ ys` is the output for `xs`, which is as long as `xs`, followed by the rest. -/
theorem outputDependsOnEarlierBytesAlone : Obligations.OutputDependsOnEarlierBytesAlone := by
  intro order mode reg xs ys
  refine ⟨adapterRun_length order mode reg (xs ++ ys), ?_⟩
  rw [adapterRun_append]
  exact List.take_left' (adapterRun_length order mode reg xs)

end Sys2Proof.Machine
end

