-- ==== Sys2Proof/Proofs/Instances.lean ====
section
/-! PROOF. Several instances (R54, R155): what a step and a call do at a position of the system, and that updates at two positions
commute. -/

namespace Sys2Proof.Machine

section Positions
variable (sys : System) (c : HostCall) {k j : Nat}

theorem System.stepAt_getElem?_same (k : Nat) :
    (sys.stepAt k).instances[k]? = sys.instances[k]?.map fun s => outcomeState s (step s) :=
  List.getElem?_modify_eq _ k sys.instances

theorem System.stepAt_getElem?_ne (h : k ≠ j) : (sys.stepAt k).instances[j]? = sys.instances[j]? :=
  List.getElem?_modify_ne _ sys.instances h

theorem System.issueAt_getElem?_ne (h : k ≠ j) : (sys.issueAt k c).instances[j]? = sys.instances[j]? :=
  List.getElem?_modify_ne _ sys.instances h

theorem System.stepAt_stepAt_comm (h : k ≠ j) : (sys.stepAt k).stepAt j = (sys.stepAt j).stepAt k :=
  congrArg System.mk (List.modify_modify_ne _ _ sys.instances h)

theorem System.stepAt_issueAt_comm (h : k ≠ j) : (sys.stepAt k).issueAt j c = (sys.issueAt j c).stepAt k :=
  congrArg System.mk (List.modify_modify_ne _ _ sys.instances h)

end Positions

/-- Settles O57: a step and a call each modify one position of the list, so another position keeps its state and two such
modifications commute. -/
theorem instancesAreIndependent : Obligations.InstancesAreIndependent := by
  intro sys k j c
  refine ⟨sys.stepAt_getElem?_same k, fun hjk => ?_⟩
  have hkj : k ≠ j := hjk.symm
  exact ⟨sys.stepAt_getElem?_ne hkj, sys.issueAt_getElem?_ne c hkj, sys.stepAt_stepAt_comm hkj,
    sys.stepAt_issueAt_comm c hkj⟩

end Sys2Proof.Machine
end

