-- ==== Sys2Proof/Proofs/Encoding.lean ====
section
/-! PROOF. The decoder as the case table of R66, decoder and encoder as inverses of each other (R62 to R66), and the counts of
R66: the words of a command are as many as its operands. -/

namespace Sys2Proof

/-! ### A word as its fields -/

section Fields
variable (w : Word)

theorem ofBool_getLsbD_eq_extractLsb' (i : Nat) : BitVec.ofBool (w.getLsbD i) = w.extractLsb' i 1 := by
  ext j hj
  simp [Nat.lt_one_iff.mp hj]

/-- The field `OP = CMD[15:14]` (R61), bit by bit. -/
theorem opField_eq_iff {w : Word} {a b : Bool} :
    w.extractLsb' 14 2 = BitVec.ofBool a ++ BitVec.ofBool b ↔ w.getLsbD 15 = a ∧ w.getLsbD 14 = b := by
  have hop : BitVec.ofBool (w.getLsbD 15) ++ BitVec.ofBool (w.getLsbD 14) = w.extractLsb' 14 2 := by
    rw [ofBool_getLsbD_eq_extractLsb', ofBool_getLsbD_eq_extractLsb']
    exact BitVec.extractLsb'_append_extractLsb'_eq_extractLsb' (by rfl)
  rw [← hop]
  generalize w.getLsbD 15 = c, w.getLsbD 14 = d
  revert a b c d
  decide

theorem fieldD_eq_ite : fieldD w = if w.getLsbD 7 then .descramble else .scramble := by
  unfold fieldD
  cases w.getLsbD 7 <;> rfl

/-- The operand byte of INIT is D, then SEED (R62). -/
theorem fieldD_append_fieldSeed : BitVec.ofBool (fieldD w).toBit ++ fieldSeed w = fieldData w := by
  rw [fieldD, Mode.toBit_ofBit, ofBool_getLsbD_eq_extractLsb']
  exact BitVec.extractLsb'_append_extractLsb'_eq_extractLsb' (by rfl)

/-- The fields of the BYTE layout make up the word (R64). -/
theorem op_append_reserved13to8_append_fieldData :
    (w.extractLsb' 14 2 ++ reserved13to8 w) ++ fieldData w = w := by
  have high : w.extractLsb' 14 2 ++ reserved13to8 w = w.extractLsb' 8 8 :=
    BitVec.extractLsb'_append_extractLsb'_eq_extractLsb' (by rfl)
  rw [high]
  exact (BitVec.extractLsb'_append_extractLsb'_eq_extractLsb' (by rfl)).trans BitVec.extractLsb'_eq_self

/-- The fields of the BIT layout make up the word (R63). -/
theorem op_append_reserved13to1_append_fieldB :
    (w.extractLsb' 14 2 ++ reserved13to1 w) ++ BitVec.ofBool (fieldB w) = w := by
  have high : w.extractLsb' 14 2 ++ reserved13to1 w = w.extractLsb' 1 15 :=
    BitVec.extractLsb'_append_extractLsb'_eq_extractLsb' (by rfl)
  rw [high, fieldB, ofBool_getLsbD_eq_extractLsb']
  exact (BitVec.extractLsb'_append_extractLsb'_eq_extractLsb' (by rfl)).trans BitVec.extractLsb'_eq_self

end Fields

/-! ### The case table -/

section CaseTable
variable {w : Word}

theorem decode_of_op00 (h : w.extractLsb' 14 2 = 0b00#2) :
    decode w = if reserved13to8 w ≠ 0 then .error (.reservedEncoding w) else .ok (.init (fieldD w) (fieldSeed w)) := by
  obtain ⟨h15, h14⟩ := opField_eq_iff (a := false) (b := false).mp h
  rw [decode, h15, h14]

theorem decode_of_op01 (h : w.extractLsb' 14 2 = 0b01#2) :
    decode w = if reserved13to1 w ≠ 0 then .error (.reservedEncoding w) else .ok (.bit (fieldB w)) := by
  obtain ⟨h15, h14⟩ := opField_eq_iff (a := false) (b := true).mp h
  rw [decode, h15, h14]

theorem decode_of_op10 (h : w.extractLsb' 14 2 = 0b10#2) :
    decode w = if reserved13to8 w ≠ 0 then .error (.reservedEncoding w) else .ok (.byte (fieldData w)) := by
  obtain ⟨h15, h14⟩ := opField_eq_iff (a := true) (b := false).mp h
  rw [decode, h15, h14]

theorem decode_of_op11 (h : w.extractLsb' 14 2 = 0b11#2) : decode w = .error (.reservedEncoding w) := by
  obtain ⟨h15, h14⟩ := opField_eq_iff (a := true) (b := true).mp h
  rw [decode, h15, h14]

end CaseTable

/-! ### Decoder and encoder -/

/-- Decoding undoes encoding, at every operand value. -/
theorem decode_encode (i : Instr) : decode (encode i) = .ok i := by
  cases i with
  | init d seed => revert seed; cases d <;> decide
  | bit b => cases b <;> decide
  | byte data => revert data; decide

/-- Encoding undoes decoding: a legal word's fields are those its command is encoded with. -/
theorem encode_of_decode {w : Word} {i : Instr} (h : decode w = .ok i) : encode i = w := by
  rcases decode_ok_cases h with ⟨h15, h14, hr, rfl⟩ | ⟨h15, h14, hr, rfl⟩ | ⟨h15, h14, hr, rfl⟩
  · have hw := op_append_reserved13to8_append_fieldData w
    rwa [opField_eq_iff.mpr ⟨h15, h14⟩, hr, ← fieldD_append_fieldSeed] at hw
  · have hw := op_append_reserved13to1_append_fieldB w
    rwa [opField_eq_iff.mpr ⟨h15, h14⟩, hr] at hw
  · have hw := op_append_reserved13to8_append_fieldData w
    rwa [opField_eq_iff.mpr ⟨h15, h14⟩, hr] at hw

theorem decode_eq_ok_iff {w : Word} {i : Instr} : decode w = .ok i ↔ encode i = w :=
  ⟨encode_of_decode, fun h => h ▸ decode_encode i⟩

theorem encode_injective : Function.Injective encode := fun i _ h =>
  Except.ok.inj ((decode_encode i).symm.trans (decode_eq_ok_iff.mpr h.symm))

/-! ### The counts -/

/-- As many words decode to a command of a family as the family has operand values. -/
theorem ncard_decode_eq_ok {α : Type} {command : α → Instr} (h : Function.Injective command) :
    Set.ncard {w : Word | ∃ a, decode w = .ok (command a)} = Nat.card α := by
  simp only [decode_eq_ok_iff]
  exact Set.ncard_range_of_injective (encode_injective.comp h)

/-- A mode is its bit (R23). -/
def Mode.equivBool : Mode ≃ Bool := ⟨Mode.toBit, Mode.ofBit, Mode.ofBit_toBit, Mode.toBit_ofBit⟩

/-- A command is its operands (R61). -/
def Instr.equivOperands : Instr ≃ (Mode × Reg) ⊕ Bool ⊕ Byte where
  toFun
    | .init d seed => .inl (d, seed)
    | .bit b => .inr (.inl b)
    | .byte data => .inr (.inr data)
  invFun
    | .inl (d, seed) => .init d seed
    | .inr (.inl b) => .bit b
    | .inr (.inr data) => .byte data
  left_inv i := by cases i <;> rfl
  right_inv x := by rcases x with ⟨d, seed⟩ | b | data <;> rfl

theorem natCard_bitVec (n : Nat) : Nat.card (BitVec n) = 2 ^ n := by
  rw [Nat.card_congr BitVec.equivFin.toEquiv, Nat.card_fin]

/-- INIT has 2 modes and 128 seeds (R62). -/
theorem natCard_initOperands : Nat.card (Mode × Reg) = 256 := by
  rw [Nat.card_prod, Nat.card_congr Mode.equivBool, natCard_bitVec]
  simp

theorem natCard_instr : Nat.card Instr = 514 := by
  have : Finite Mode := .of_equiv Bool Mode.equivBool.symm
  rw [Nat.card_congr Instr.equivOperands, Nat.card_sum, Nat.card_sum, natCard_initOperands, natCard_bitVec]
  simp

theorem ncard_decode_init : Set.ncard {w : Word | ∃ d seed, decode w = .ok (.init d seed)} = 256 := by
  have hinj : Function.Injective (Function.uncurry Instr.init) := by
    rintro ⟨d, seed⟩ ⟨d', seed'⟩ h
    cases h
    rfl
  have hcount := ncard_decode_eq_ok hinj
  simp only [Prod.exists, Function.uncurry_apply_pair] at hcount
  exact hcount.trans natCard_initOperands

theorem ncard_decode_bit : Set.ncard {w : Word | ∃ b, decode w = .ok (.bit b)} = 2 :=
  (ncard_decode_eq_ok fun _ _ => Instr.bit.inj).trans (by simp)

theorem ncard_decode_byte : Set.ncard {w : Word | ∃ data, decode w = .ok (.byte data)} = 256 :=
  (ncard_decode_eq_ok fun _ _ => Instr.byte.inj).trans (natCard_bitVec 8)

theorem ncard_decode_ok : Set.ncard {w : Word | ∃ i, decode w = .ok i} = 514 :=
  (ncard_decode_eq_ok Function.injective_id).trans natCard_instr

/-- A word is refused exactly when it decodes to no command. -/
theorem exists_decode_error_iff {w : Word} : (∃ e, decode w = .error e) ↔ ¬ ∃ i, decode w = .ok i := by
  cases decode w <;> simp

theorem ncard_decode_error : Set.ncard {w : Word | ∃ e, decode w = .error e} = 65022 := by
  simp only [exists_decode_error_iff]
  have hcompl := Set.ncard_compl {w : Word | ∃ i, decode w = .ok i}
  rwa [ncard_decode_ok, natCard_bitVec] at hcompl

/-- Settles O4: the table by the value of `OP`, and the counts by the operands of each command, the refused words being the
complement of the legal ones. -/
theorem decoderTableAndCounts : Obligations.DecoderTableAndCounts := by
  refine ⟨fun w => ⟨fun h => ?_, decode_of_op01, decode_of_op10, decode_of_op11⟩,
    ncard_decode_init, ncard_decode_bit, ncard_decode_byte, ncard_decode_ok, ncard_decode_error⟩
  rw [← fieldD_eq_ite]
  exact decode_of_op00 h

end Sys2Proof
end

