-- ==== Sys2Proof/Proofs/Responses.lean ====
section
/-! PROOF. What a step that faults leaves of the state (R149, R150), and the response of each command that is done (R69). -/

namespace Sys2Proof.Machine

/-! ### Faults -/

/-- A call that faults has set `FAULT` to its reason and changed nothing else (R149). -/
theorem runCall_fault_after {c : HostCall} {s : State} {f : Fault} (h : runCall c s = .fault f) :
    f.after = s.markFault f.reason := by
  cases c with
  | command w =>
    rw [runCall] at h
    cases hd : decode w with
    | error e => rw [runCommand_error hd] at h; cases h
    | ok i =>
      rw [runCommand_ok hd] at h
      obtain ⟨-, rfl⟩ := exec_fault_cases h
      rfl
  | newScrambler d => cases h
  | process n bytesIn =>
    rw [runCall, acceptProcess] at h
    rcases processCheck_cases n bytesIn s with ⟨_, e⟩ | ⟨_, _, _, e⟩ | ⟨_, _, e⟩ <;> rw [e] at h <;> cases h <;> rfl

/-- Everything a step that faults can have done: it found `FAULT` set and changed nothing, or it took the oldest call, which
faulted. -/
theorem step_fault_cases {s : State} {f : Fault} (h : step s = .fault f) :
    (∃ r, s.hosts < 2 ∧ s.fault = some r ∧ f = .noFurtherStep r s) ∨
    (∃ c rest, s.Ready ∧ s.pending = c :: rest ∧ runCall c { s with pending := rest } = .fault f) := by
  by_cases hh : 2 ≤ s.hosts
  · rw [step_concurrent hh] at h; cases h
  replace hh := Nat.lt_of_not_le hh
  rcases Option.eq_none_or_eq_some s.fault with hf | ⟨r, hf⟩
  · have hr : s.Ready := ⟨hh, hf⟩
    cases hp : s.pending with
    | nil => rw [step_idle hr hp] at h; cases h
    | cons c rest =>
      rw [step_call hr hp] at h
      exact .inr ⟨c, rest, hr, rfl, h⟩
  · rw [step_faulted hh hf] at h
    cases h
    exact .inl ⟨r, hh, hf, rfl⟩

/-- No response from a fault (R69, R149). -/
theorem step_fault_responses {s : State} {f : Fault} (h : step s = .fault f) : f.after.responses = s.responses := by
  rcases step_fault_cases h with ⟨r, _, _, rfl⟩ | ⟨c, rest, _, _, hc⟩
  · rfl
  · rw [runCall_fault_after hc, State.markFault_responses]

/-! ### Responses -/

theorem zext8_extractLsb'_one_seven (y : Bool) : (zext8 y).extractLsb' 1 7 = 0 := by
  cases y <;> decide

theorem zext8_getLsbD_zero (y : Bool) : (zext8 y).getLsbD 0 = y := by
  cases y <;> decide

theorem exec_init_responses {d : Mode} {seed : Reg} {s t : State} (h : exec (.init d seed) s = .next t) :
    t.responses = s.responses ++ [.ack] := by
  cases h
  rfl

theorem exec_bit_responses {b : Bool} {s t : State} (h : exec (.bit b) s = .next t) :
    t.responses = s.responses ++ [.data (zext8 (engineStep s.mode s.reg b).2)] := by
  obtain ⟨-, rfl⟩ := whenConstructed_next h
  rfl

theorem exec_byte_responses {data : Byte} {s t : State} (h : exec (.byte data) s = .next t) :
    t.responses = s.responses ++ [.data (adapterByte .msbFirst s.mode s.reg data).2] := by
  obtain ⟨-, rfl⟩ := whenConstructed_next h
  rfl

/-- Settles O14: the response each command appends, BIT's being zero above its output bit; a fault only marks `FAULT`, and a
refusal leaves the state. -/
theorem responseForms : Obligations.ResponseForms := by
  refine ⟨fun b s t h => ⟨_, exec_bit_responses h, zext8_extractLsb'_one_seven _, zext8_getLsbD_zero _⟩,
    fun _ _ _ => exec_byte_responses, fun _ _ _ _ => exec_init_responses, fun _ _ => step_fault_responses,
    fun s r h => ?_⟩
  rw [h, outcomeState]

end Sys2Proof.Machine
end

