-- ==== Sys2Proof/Proofs/EngineStream.lean ====
section
/-! PROOF. The engine over the parts of a bit stream, and its recurrence (R89): output bit t comes from input bit t and the register
that the bits before it leave, which is a window on the history. -/

namespace Sys2Proof.Machine

/-! ### The first bits of a stream, one bit, and the rest -/

section Stream
variable (m : Mode) (r : Reg) (xs : List Bool) (t : Nat)

/-- The outputs of the first `t` inputs are the first `t` outputs. -/
theorem engineRun_take : (engineRun m r (xs.take t)).2 = (engineRun m r xs).2.take t := by
  induction xs generalizing r t with
  | nil => simp
  | cons x xs ih => cases t <;> simp [ih]

/-- The outputs after the first `t` are those of the rest of the input, from the register the first `t` inputs leave. -/
theorem engineRun_drop : (engineRun m (engineRun m r (xs.take t)).1 (xs.drop t)).2 = (engineRun m r xs).2.drop t := by
  induction xs generalizing r t with
  | nil => simp
  | cons x xs ih => cases t <;> simp [ih]

theorem insertedBits_take : insertedBits m r (xs.take t) = (insertedBits m r xs).take t := by
  cases m with
  | scramble => exact engineRun_take .scramble r xs t
  | descramble => rfl

/-- Output bit `t` is the engine's output on input bit `t`, from the register that the bits before it leave. -/
theorem engineRun_getElem? {xs : List Bool} {t : Nat} {x : Bool} (hx : xs[t]? = some x) :
    (engineRun m r xs).2[t]? = some (x ^^ feedback (engineRun m r (xs.take t)).1) := by
  induction xs generalizing r t with
  | nil => cases hx
  | cons x' xs ih =>
    cases t with
    | zero => cases hx; rfl
    | succ t => exact ih _ hx

/-- `s_t` as R89 has it, by mode. -/
theorem insertedBits_eq_ite :
    insertedBits m r xs = if m = .scramble then (engineRun m r xs).2 else xs := by
  cases m <;> rfl

end Stream

/-! ### The recurrence -/

/-- `REG` before step `t` is the seven bits of the history before `s_t`, `s_(t-1)` in `REG[0]` (R89). -/
theorem history_getElem?_eq_engineRun_take_getLsbD (m : Mode) (seed : Reg) {xs : List Bool} {t j : Nat}
    (ht : t ≤ xs.length) (hj : j < 7) :
    (seedHistory seed ++ insertedBits m seed xs)[t + 6 - j]? =
      some ((engineRun m seed (xs.take t)).1.getLsbD j) := by
  have window := history_getElem?_eq_engineRun_getLsbD m seed (xs.take t) hj
  have hidx : t + (6 - j) = t + 6 - j := by omega
  have hsplit : seedHistory seed ++ insertedBits m seed xs =
      (seedHistory seed ++ insertedBits m seed (xs.take t)) ++ (insertedBits m seed xs).drop t := by
    rw [insertedBits_take, List.append_assoc, List.take_append_drop]
  rw [List.length_take_of_le ht, hidx] at window
  rwa [hsplit, List.getElem?_append_left]
  rw [List.length_append, seedHistory_length, insertedBits_length, List.length_take_of_le ht]
  omega

/-- Settles O39: the taps of the register before step t are the bits 4 and 7 places back in the history, and after 7 steps the whole
register is a window on the inserted bits. -/
theorem outputRecurrence : Obligations.OutputRecurrence := by
  refine ⟨fun mode seed xs t x hx => ?_, fun seed j => seedHistory_getElem? seed, fun mode seed xs j hj hn => ?_⟩
  · have ht : t ≤ xs.length := (List.getElem?_eq_some_iff.mp hx).1.le
    have window (j : Nat) (hj : j < 7) := history_getElem?_eq_engineRun_take_getLsbD mode seed ht hj
    rw [← insertedBits_eq_ite]
    refine ⟨⟨_, _, window 3 (by omega), window 6 (by omega), ?_⟩, window⟩
    rw [engineRun_getElem? mode seed hx, feedback, Bool.xor_assoc]
  · rw [← insertedBits_eq_ite]
    exact insertedBits_getElem?_eq_engineRun_getLsbD mode seed xs hj (by omega)

end Sys2Proof.Machine
end

