-- ==== Sys2Proof/Proofs/Linearity.lean ====
section
/-! PROOF. The engine is linear over GF(2) (R88): the shift, the feedback and so the step carry a sum of registers and inputs to the
sum of the results. -/

namespace Sys2Proof.Machine

theorem shiftIn_xor (r r' : Reg) (s s' : Bool) : shiftIn (r ^^^ r') (s ^^ s') = shiftIn r s ^^^ shiftIn r' s' := by
  refine BitVec.eq_of_getLsbD_eq fun j hj => ?_
  rw [BitVec.getLsbD_xor, shiftIn_getLsbD _ _ j hj, shiftIn_getLsbD _ _ j hj, shiftIn_getLsbD _ _ j hj,
    BitVec.getLsbD_xor]
  split <;> rfl

theorem shiftIn_false (r : Reg) : shiftIn r false = r <<< 1 := by
  refine BitVec.eq_of_getLsbD_eq fun j hj => ?_
  rw [shiftIn_getLsbD r false j hj, BitVec.getLsbD_shiftLeft]
  rcases Nat.eq_zero_or_pos j with rfl | hpos
  · rfl
  · simp [hj, Nat.pos_iff_ne_zero.mp hpos, -BitVec.getLsbD_eq_getElem]

theorem feedback_xor (r r' : Reg) : feedback (r ^^^ r') = (feedback r ^^ feedback r') := by
  simp only [feedback, BitVec.getLsbD_xor, Bool.xor_assoc, Bool.xor_left_comm]

theorem engineStep_xor (m : Mode) (r r' : Reg) (x x' : Bool) :
    engineStep m (r ^^^ r') (x ^^ x') =
      ((engineStep m r x).1 ^^^ (engineStep m r' x').1, (engineStep m r x).2 ^^ (engineStep m r' x').2) := by
  have output : (engineStep m (r ^^^ r') (x ^^ x')).2 = ((engineStep m r x).2 ^^ (engineStep m r' x').2) := by
    simp only [engineStep_snd, feedback_xor, Bool.xor_assoc, Bool.xor_left_comm]
  refine Prod.ext ?_ output
  cases m with
  | scramble => exact (congrArg (shiftIn _) output).trans (shiftIn_xor ..)
  | descramble => exact shiftIn_xor ..

/-- The run on a sum of registers and of streams of the same length is the sum of the runs (R88). -/
theorem engineRun_xor (m : Mode) {xs xs' : List Bool} (r r' : Reg) (h : xs.length = xs'.length) :
    engineRun m (r ^^^ r') (List.zipWith xor xs xs') =
      ((engineRun m r xs).1 ^^^ (engineRun m r' xs').1,
        List.zipWith xor (engineRun m r xs).2 (engineRun m r' xs').2) := by
  induction xs generalizing xs' r r' with
  | nil =>
    obtain rfl := List.eq_nil_of_length_eq_zero h.symm
    rfl
  | cons x xs ih =>
    obtain ⟨x', xs', rfl⟩ := List.exists_cons_of_length_eq_add_one h.symm
    simp only [List.zipWith_cons_cons, engineRun_cons, engineStep_xor, ih _ _ (Nat.succ.inj h)]

end Sys2Proof.Machine
end

