-- ==== Sys2Proof/Proofs/SelfSynchronisation.lean ====
section
/-! PROOF. Registers into which the same bits are shifted: their difference is the difference of the seeds, shifted out at the top.
Self-synchronisation (R90) is the feedback of that difference. -/

namespace Sys2Proof.Machine

/-! ### The difference of two registers -/

/-- A run shifts its inserted bits into the register (R83). -/
theorem engineRun_fst_eq_foldl_shiftIn (m : Mode) (r : Reg) (xs : List Bool) :
    (engineRun m r xs).1 = (insertedBits m r xs).foldl shiftIn r := by
  induction xs generalizing r with
  | nil => cases m <;> rfl
  | cons x xs ih => rw [engineRun_cons, insertedBits_cons, List.foldl_cons, ih, engineStep_fst, engineStep_snd]

/-- Shifting the same bits into two registers shifts their difference out at the top. -/
theorem foldl_shiftIn_xor (bs : List Bool) (r r' : Reg) :
    bs.foldl shiftIn r ^^^ bs.foldl shiftIn r' = (r ^^^ r') <<< bs.length := by
  induction bs generalizing r r' with
  | nil => simp
  | cons b bs ih =>
    rw [List.foldl_cons, List.foldl_cons, ih, ← shiftIn_xor, Bool.xor_self, shiftIn_false, List.length_cons,
      Nat.add_comm, BitVec.shiftLeft_add]

/-- The feedback of a difference shifted by `t`: the taps look `t` bits further down, where there still are any (R90). -/
theorem feedback_shiftLeft (e : Reg) {t : Nat} (ht : t < 7) :
    feedback (e <<< t) = ((if t ≤ 3 then e.getLsbD (3 - t) else false) ^^ e.getLsbD (6 - t)) := by
  simp only [feedback, BitVec.getLsbD_shiftLeft]
  by_cases h : t ≤ 3
  · simp [h, Nat.not_lt.mpr h, Nat.not_lt.mpr (Nat.le_of_lt_succ ht)]
  · simp [h, Nat.lt_of_not_le h, Nat.not_lt.mpr (Nat.le_of_lt_succ ht)]

/-! ### The descrambler behind the scrambler -/

/-- Behind a scrambler, the descrambler's register differs from the scrambler's by the seeds' difference, moved up once a bit. -/
theorem descrambler_register_difference (seedS seedD : Reg) (xs : List Bool) :
    (engineRun .scramble seedS xs).1 ^^^ (engineRun .descramble seedD (engineRun .scramble seedS xs).2).1 =
      (seedS ^^^ seedD) <<< xs.length := by
  rw [engineRun_fst_eq_foldl_shiftIn, engineRun_fst_eq_foldl_shiftIn]
  simp only [insertedBits]
  rw [foldl_shiftIn_xor, engineRun_length]

/-- What a descrambler gives for bit `t`: the scrambler's input, with the feedback of what is left of the seeds' difference as its
error (R90). -/
theorem descrambler_output {seedS : Reg} (seedD : Reg) {xs : List Bool} {t : Nat} {x : Bool} (hx : xs[t]? = some x) :
    (engineRun .descramble seedD (engineRun .scramble seedS xs).2).2[t]? =
      some (x ^^ feedback ((seedS ^^^ seedD) <<< t)) := by
  have ht : t ≤ xs.length := (List.getElem?_eq_some_iff.mp hx).1.le
  have hdiff := descrambler_register_difference seedS seedD (xs.take t)
  rw [List.length_take_of_le ht] at hdiff
  rw [engineRun_getElem? .descramble seedD (engineRun_getElem? .scramble seedS hx), ← engineRun_take, ← hdiff,
    feedback_xor, Bool.xor_assoc]

/-- From the 8th bit on nothing is left of the seeds' difference (R90). -/
theorem descrambler_output_of_seven_le {seedS : Reg} (seedD : Reg) {xs : List Bool} {t : Nat} {x : Bool}
    (hx : xs[t]? = some x) (ht : 7 ≤ t) :
    (engineRun .descramble seedD (engineRun .scramble seedS xs).2).2[t]? = some x := by
  rw [descrambler_output seedD hx, BitVec.shiftLeft_eq_zero ht]
  exact congrArg some (Bool.xor_false x)

/-- Settles O40: the descrambler's error is the feedback of the shifted difference of the seeds; a descrambler that joins late is one
behind a scrambler that starts, at that point, from the register it has there. -/
theorem selfSynchronisation : Obligations.SelfSynchronisation := by
  intro seedS seedD xs t x hx
  refine ⟨descrambler_output_of_seven_le seedD hx, fun ht => ⟨_, descrambler_output seedD hx, ?_⟩, ?_, fun m hm => ?_⟩
  · rw [Bool.xor_comm x, Bool.xor_assoc, Bool.xor_self, Bool.xor_false, feedback_shiftLeft _ ht]
  · rintro rfl
    rw [descrambler_output seedS hx, BitVec.xor_self, BitVec.zero_shiftLeft]
    exact congrArg some (Bool.xor_false x)
  · have hx' : (xs.drop m)[t - m]? = some x := by
      rw [List.getElem?_drop, Nat.add_sub_cancel' (by omega), hx]
    rw [← engineRun_drop]
    exact descrambler_output_of_seven_le seedD hx' (by omega)

end Sys2Proof.Machine
end

