-- ==== Sys2Proof/Proofs/RoundTrip.lean ====
section
/-! PROOF. The seed-matched round trip (R92), bit by bit, byte by byte and for the PROCESS transaction (R106), which is the adapter
run over the host's bytes. -/

namespace Sys2Proof.Machine

/-! ### Bits and bytes -/

/-- A descrambler's step on a scrambler's output, from the same register, undoes the scrambler's step and keeps the registers equal. -/
theorem engineStep_descramble_scramble (r : Reg) (x : Bool) :
    engineStep .descramble r (engineStep .scramble r x).2 = ((engineStep .scramble r x).1, x) :=
  Prod.ext rfl (by simp [engineStep_snd])

theorem engineRun_descramble_scramble (r : Reg) (xs : List Bool) :
    engineRun .descramble r (engineRun .scramble r xs).2 = ((engineRun .scramble r xs).1, xs) := by
  induction xs generalizing r with
  | nil => rfl
  | cons x xs ih => simp [engineStep_descramble_scramble, ih]

theorem adapterByte_descramble_scramble (r : Reg) (b : Byte) :
    adapterByte .msbFirst .descramble r (adapterByte .msbFirst .scramble r b).2 =
      ((adapterByte .msbFirst .scramble r b).1, b) := by
  have hbits : (engineRun .scramble r (bitsMsbFirst b)).2.length = 8 := engineRun_length ..
  rw [adapterByte_msbFirst .scramble, adapterByte_msbFirst, bitsMsbFirst_packMsbFirst hbits,
    engineRun_descramble_scramble, packMsbFirst_bitsMsbFirst]

theorem adapterRun_descramble_scramble (r : Reg) (bs : List Byte) :
    adapterRun .msbFirst .descramble r (adapterRun .msbFirst .scramble r bs).2 =
      ((adapterRun .msbFirst .scramble r bs).1, bs) := by
  induction bs generalizing r with
  | nil => rfl
  | cons b bs ih => simp [adapterByte_descramble_scramble, ih]

/-! ### The PROCESS transaction -/

/-- R106's loop, `pre` of the bytes read and `out` written, appends the adapter's outputs for the rest. -/
theorem processLoop_eq_adapterRun (m : Mode) (pre bs out : List Byte) (r : Reg) (h : out.length = pre.length) :
    processLoop m (pre ++ bs) bs.length pre.length r (out ++ List.replicate bs.length 0) =
      ((adapterRun Config.bitOrder m r bs).1, out ++ (adapterRun Config.bitOrder m r bs).2) := by
  induction bs generalizing pre out r with
  | nil => rfl
  | cons b bs ih =>
    have hread : inRead (pre ++ b :: bs) pre.length = some b := by simp [inRead]
    have hwrite (y : Byte) : outWrite (out ++ List.replicate (bs.length + 1) 0) pre.length y =
        (out ++ [y]) ++ List.replicate bs.length 0 := by
      simp [outWrite, ← h, List.replicate_succ]
    have step := ih (pre ++ [b]) (out ++ [(adapterByte Config.bitOrder m r b).2]) (adapterByte Config.bitOrder m r b).1
      (by simp [h])
    simp only [List.length_append, List.length_singleton, List.append_assoc, List.singleton_append] at step
    simp only [List.length_cons, processLoop, hread, hwrite, List.append_assoc, List.singleton_append, step,
      adapterRun_cons]

/-- PROCESS of a constructed instance is the adapter over its bytes (R106, R108). -/
theorem processTransaction_eq_adapterRun {s : State} (hv : s.valid = true) (bs : List Byte) :
    processTransaction bs.length bs s =
      .ok (s.setReg (adapterRun .msbFirst s.mode s.reg bs).1, (adapterRun .msbFirst s.mode s.reg bs).2) := by
  have hcheck : processCheck bs.length bs s = none := by simp [processCheck, hv]
  have hloop := processLoop_eq_adapterRun s.mode [] bs [] s.reg rfl
  simp only [List.nil_append, List.length_nil] at hloop
  simp only [processTransaction, hcheck, hloop, Config.bitOrder]

/-- Settles O41: the round trip of the engine, and that of the adapter, which PROCESS is. -/
theorem seedMatchedRoundTrip : Obligations.SeedMatchedRoundTrip := by
  refine ⟨engineRun_descramble_scramble, fun a b bytes ha hb hma hmb hreg => ?_⟩
  have run_a := processTransaction_eq_adapterRun ha bytes
  have run_b := processTransaction_eq_adapterRun hb (adapterRun .msbFirst a.mode a.reg bytes).2
  rw [hmb, ← hreg, hma, adapterRun_descramble_scramble] at run_b
  rw [hma] at run_a
  exact ⟨_, _, _, run_a, run_b, rfl⟩

end Sys2Proof.Machine
end

