-- ==== Sys2Proof/Proofs/RegisterMap.lean ====
section
/-! PROOF. The step as a map on registers: in Scramble mode a bijection with the inverse R93 gives, in Descramble mode one that
forgets `REG[6]`. What follows for two instances fed the same bits (R93). -/

namespace Sys2Proof.Machine

/-- What an engine step on input bit `x` makes of the register (R83). -/
def registerStep (m : Mode) (x : Bool) (r : Reg) : Reg := (engineStep m r x).1

/-! ### The inverse of the Scramble step -/

/-- The register before a Scramble step on `x`, from the register after it (R93). -/
def scrambleStepBack (x : Bool) (r' : Reg) : Reg :=
  BitVec.ofBool ((r'.getLsbD 0 ^^ x) ^^ r'.getLsbD 4) ++ r'.extractLsb' 1 6

theorem extractLsb'_one_shiftIn (r : Reg) (s : Bool) : (shiftIn r s).extractLsb' 1 6 = r.extractLsb' 0 6 := by
  refine BitVec.eq_of_getLsbD_eq fun j hj => ?_
  rw [BitVec.getLsbD_extractLsb', BitVec.getLsbD_extractLsb', shiftIn_getLsbD r s _ (by omega), Nat.zero_add,
    if_neg (by omega), Nat.add_sub_cancel_left]

/-- The bit shifted out is the inserted bit less the input and the other tap, which has moved up to `REG'[4]` (R93). -/
theorem getLsbD_six_eq_of_scramble (r : Reg) (x : Bool) :
    r.getLsbD 6 = (((registerStep .scramble x r).getLsbD 0 ^^ x) ^^ (registerStep .scramble x r).getLsbD 4) := by
  have inserted : (registerStep .scramble x r).getLsbD 0 = (x ^^ feedback r) := shiftIn_getLsbD r _ 0 (by omega)
  have tap : (registerStep .scramble x r).getLsbD 4 = r.getLsbD 3 := shiftIn_getLsbD r _ 4 (by omega)
  rw [inserted, tap, Bool.xor_comm x, Bool.xor_assoc (feedback r), Bool.xor_self, Bool.xor_false, feedback,
    Bool.xor_comm (r.getLsbD 3), Bool.xor_assoc, Bool.xor_self, Bool.xor_false]

theorem ofBool_getLsbD_six_append_extractLsb' (r : Reg) : BitVec.ofBool (r.getLsbD 6) ++ r.extractLsb' 0 6 = r := by
  refine BitVec.eq_of_getLsbD_eq fun j hj => ?_
  rw [BitVec.getLsbD_append, BitVec.getLsbD_extractLsb', Nat.zero_add]
  by_cases h : j < 6
  · simp [h]
  · obtain rfl : j = 6 := by omega
    simp

theorem scrambleStepBack_leftInverse (x : Bool) :
    Function.LeftInverse (scrambleStepBack x) (registerStep .scramble x) := by
  intro r
  rw [scrambleStepBack, ← getLsbD_six_eq_of_scramble, registerStep, engineStep_fst, extractLsb'_one_shiftIn,
    ofBool_getLsbD_six_append_extractLsb']

theorem registerStep_scramble_bijective (x : Bool) : Function.Bijective (registerStep .scramble x) :=
  Finite.injective_iff_bijective.mp (scrambleStepBack_leftInverse x).injective

/-- Scramblers in different states, fed the same bits, never meet (R93). -/
theorem engineRun_scramble_fst_injective (xs : List Bool) :
    Function.Injective fun r => (engineRun .scramble r xs).1 := by
  induction xs with
  | nil => exact Function.injective_id
  | cons x xs ih => exact ih.comp (registerStep_scramble_bijective x).injective

/-! ### The scrambler fed zeros -/

/-- A scrambler of seed 0 fed zeros outputs zeros for ever (R94). -/
theorem engineRun_scramble_zero (n : Nat) :
    engineRun .scramble 0 (List.replicate n false) = (0, List.replicate n false) := by
  have fixed : engineStep .scramble 0 false = (0, false) := by decide
  induction n with
  | zero => rfl
  | succ n ih => rw [List.replicate_succ, engineRun_cons, fixed, ih]

theorem engineRun_scramble_fst_ne_zero {e : Reg} (he : e ≠ 0) (n : Nat) :
    (engineRun .scramble e (List.replicate n false)).1 ≠ 0 := by
  have never_meets := (engineRun_scramble_fst_injective (List.replicate n false)).ne he
  rwa [engineRun_scramble_zero] at never_meets

/-- The register after seven steps or more is the last seven outputs (R89). -/
theorem engineRun_scramble_getElem?_eq_getLsbD (r : Reg) {xs : List Bool} {t j : Nat} (ht : t + 7 ≤ xs.length)
    (hj : j < 7) :
    (engineRun .scramble r xs).2[t + (6 - j)]? = some ((engineRun .scramble r (xs.take (t + 7))).1.getLsbD j) := by
  have hidx : t + 7 - 1 - j = t + (6 - j) := by omega
  have window := insertedBits_getElem?_eq_engineRun_getLsbD .scramble r (xs.take (t + 7)) hj
    (by rw [List.length_take_of_le ht]; omega)
  rwa [List.length_take_of_le ht, hidx, insertedBits, engineRun_take, List.getElem?_take_of_lt (by omega)] at window

/-- A scrambler fed zeros outputs the sum of its outputs 4 and 7 steps back (R89). -/
theorem engineRun_scramble_zeros_recurrence (e : Reg) {n t : Nat} (ht : t + 7 < n) :
    let d := (engineRun .scramble e (List.replicate n false)).2
    ∃ a b, d[t + 3]? = some a ∧ d[t]? = some b ∧ d[t + 7]? = some (a ^^ b) := by
  intro d
  have window {j : Nat} (hj : j < 7) := engineRun_scramble_getElem?_eq_getLsbD (t := t) e
    (xs := List.replicate n false) (by rw [List.length_replicate]; omega) hj
  refine ⟨_, _, window (j := 3) (by omega), window (j := 6) (by omega), ?_⟩
  have output := engineRun_getElem? .scramble e (List.getElem?_replicate_of_lt (a := false) ht)
  rwa [Bool.false_xor, feedback] at output

theorem exists_getLsbD_of_ne_zero {r : Reg} (h : r ≠ 0) : ∃ j, j < 7 ∧ r.getLsbD j = true := by
  by_contra none_set
  push Not at none_set
  exact h (BitVec.eq_of_getLsbD_eq fun j hj =>
    (Bool.eq_false_iff.mpr (none_set j hj)).trans BitVec.getLsbD_zero.symm)

/-- A scrambler fed zeros from a nonzero register never outputs seven zeros in a row: they would be its register. -/
theorem engineRun_scramble_zeros_exists_true {e : Reg} (he : e ≠ 0) {n t : Nat} (ht : t + 7 ≤ n) :
    ∃ k, k < 7 ∧ (engineRun .scramble e (List.replicate n false)).2[t + k]? = some true := by
  have hne : (engineRun .scramble e ((List.replicate n false).take (t + 7))).1 ≠ 0 := by
    rw [List.take_replicate]
    exact engineRun_scramble_fst_ne_zero he _
  obtain ⟨j, hj, hbit⟩ := exists_getLsbD_of_ne_zero hne
  refine ⟨6 - j, by omega, ?_⟩
  rw [engineRun_scramble_getElem?_eq_getLsbD e (by rwa [List.length_replicate]) hj, hbit]

/-! ### Two instances fed the same bits -/

theorem zipWith_xor_self (xs : List Bool) : List.zipWith xor xs xs = List.replicate xs.length false := by
  induction xs with
  | nil => rfl
  | cons x xs ih => rw [List.zipWith_cons_cons, ih, Bool.xor_self]; rfl

/-- The difference of two scramblers' outputs is what a scrambler in the difference of their states makes of zeros (R88). -/
theorem scramblers_output_difference (r₁ r₂ : Reg) (xs : List Bool) :
    List.zipWith xor (engineRun .scramble r₁ xs).2 (engineRun .scramble r₂ xs).2 =
      (engineRun .scramble (r₁ ^^^ r₂) (List.replicate xs.length false)).2 := by
  rw [← zipWith_xor_self, engineRun_xor .scramble r₁ r₂ rfl]

/-- Any seven bits bring any two descramblers to the same state (R93). -/
theorem descramblers_meet (r₁ r₂ : Reg) {xs : List Bool} (h : xs.length = 7) :
    (engineRun .descramble r₁ xs).1 = (engineRun .descramble r₂ xs).1 := by
  have hdiff := foldl_shiftIn_xor xs r₁ r₂
  rw [h, BitVec.shiftLeft_eq_zero (Nat.le_refl 7)] at hdiff
  rw [engineRun_fst_eq_foldl_shiftIn, engineRun_fst_eq_foldl_shiftIn]
  exact BitVec.xor_eq_zero_iff.mp hdiff

/-- The Descramble step forgets `REG[6]`. -/
theorem registerStep_descramble_not_injective (x : Bool) : ¬ Function.Injective (registerStep .descramble x) := by
  intro h
  have collide : registerStep .descramble x 0x00 = registerStep .descramble x 0x40 := by cases x <;> decide
  exact absurd (h collide) (by decide)

/-- Settles O42: the Scramble step has a left inverse, so scramblers never meet, and their difference is a scrambler fed zeros from a
nonzero state; the Descramble step loses a bit. -/
theorem scramblersNeverMeetDescramblersDo : Obligations.ScramblersNeverMeetDescramblersDo := by
  refine ⟨registerStep_scramble_bijective,
    fun reg x => ⟨(extractLsb'_one_shiftIn reg _).symm, getLsbD_six_eq_of_scramble reg x⟩,
    fun r₁ r₂ xs hne => ?_, fun _ _ => rfl, registerStep_descramble_not_injective, fun r₁ r₂ xs => descramblers_meet r₁ r₂⟩
  have he : r₁ ^^^ r₂ ≠ 0 := mt BitVec.xor_eq_zero_iff.mp hne
  rw [scramblers_output_difference]
  exact ⟨(engineRun_scramble_fst_injective xs).ne hne, fun t => engineRun_scramble_zeros_recurrence _,
    fun t => engineRun_scramble_zeros_exists_true he⟩

end Sys2Proof.Machine
end

