-- ==== Sys2Proof/Proofs/EngineCycle.lean ====
section
/-! PROOF. The scrambler fed zeros as the iterates of one map on registers, and the cycle of its 127 nonzero states (R94). -/

namespace Sys2Proof.Machine

/-- A run on `n` equal bits iterates their step `n` times. -/
theorem engineRun_replicate_fst (m : Mode) (x : Bool) (n : Nat) (r : Reg) :
    (engineRun m r (List.replicate n x)).1 = (registerStep m x)^[n] r := by
  induction n generalizing r with
  | zero => rfl
  | succ n ih => rw [List.replicate_succ, engineRun_cons, ih, Function.iterate_succ_apply, registerStep]

/-- The state `n` Scramble steps on input 0 after 0x7F (R94). -/
def cycleState (n : Nat) : Reg := (registerStep .scramble false)^[n] 0x7F

theorem engineRun_zeros_fst_eq_cycleState (n : Nat) :
    (engineRun .scramble 0x7F (List.replicate n false)).1 = cycleState n :=
  engineRun_replicate_fst .scramble false n 0x7F

/-- 0x7F returns after 127 steps, and 127 is prime, so it returns no earlier (R94). -/
theorem minimalPeriod_cycle : Function.minimalPeriod (registerStep .scramble false) 0x7F = 127 := by
  have : Fact (Nat.Prime 127) := ⟨by norm_num⟩
  have returns : (registerStep .scramble false)^[127] 0x7F = 0x7F := by decide +kernel
  have moves : registerStep .scramble false 0x7F ≠ 0x7F := by decide
  exact Function.minimalPeriod_eq_prime returns moves

theorem cycleState_period : cycleState 127 = 0x7F := by
  rw [cycleState, ← minimalPeriod_cycle]
  exact Function.iterate_minimalPeriod

theorem cycleState_ne_start {n : Nat} (hn : n < 127) (hpos : 0 < n) : cycleState n ≠ 0x7F :=
  Function.not_isPeriodicPt_of_pos_of_lt_minimalPeriod hpos.ne' (minimalPeriod_cycle ▸ hn)

theorem cycleState_injOn : Set.InjOn cycleState (Set.Iio 127) := by
  rw [← minimalPeriod_cycle]
  exact Function.iterate_injOn_Iio_minimalPeriod

theorem cycleState_ne_zero (n : Nat) : cycleState n ≠ 0 := by
  rw [← engineRun_zeros_fst_eq_cycleState]
  exact engineRun_scramble_fst_ne_zero (by decide) n

/-- The cycle passes 127 different states, none of them 0, and there are no more (R94). -/
theorem cycleState_image : cycleState '' Set.Iio 127 = {0}ᶜ := by
  have nonzero : cycleState '' Set.Iio 127 ⊆ {0}ᶜ := by
    rintro _ ⟨n, -, rfl⟩
    exact cycleState_ne_zero n
  refine Set.eq_of_subset_of_ncard_le nonzero ?_
  rw [cycleState_injOn.ncard_image, Set.ncard_compl, natCard_bitVec, Set.ncard_singleton]
  simp

/-- Settles O44: the fixed points and the first bytes by evaluation, the cycle by the period of 0x7F. -/
theorem engineCornerCases : Obligations.EngineCornerCases := by
  refine ⟨fun mode => by cases mode <;> decide, engineRun_scramble_zero, fun mode => by cases mode <;> decide,
    ?_, fun n hn hpos => ?_, fun r hr => ?_, by decide, fun mode reg x h => ?_, fun mode reg x h => ?_⟩
  · rw [engineRun_zeros_fst_eq_cycleState, cycleState_period]
  · rw [engineRun_zeros_fst_eq_cycleState]
    exact cycleState_ne_start hn hpos
  · obtain ⟨n, hn, rfl⟩ := cycleState_image.symm.subset hr
    exact ⟨n, hn, engineRun_zeros_fst_eq_cycleState n⟩
  · rw [engineStep_snd, feedback, h, Bool.xor_self, Bool.xor_false]
  · rw [engineStep_snd, feedback, Bool.eq_not.mpr h]
    simp

end Sys2Proof.Machine
end

