-- ==== Sys2Proof/Proofs/BitCommand.lean ====
section
/-! PROOF. BIT as one engine step on an instance (R85). -/

namespace Sys2Proof.Machine

/-- BIT of a constructed instance is done (R85, R142). -/
theorem exec_bit_of_valid {b : Bool} {s : State} (h : s.valid = true) : exec (.bit b) s = .next (s.bitStep b) := by
  rcases whenConstructed_cases (.bit b) s (s.bitStep b) with ⟨-, e⟩ | ⟨hv, -⟩
  · exact e
  · exact absurd (h.symm.trans hv) (by decide)

/-- BIT before construction faults (R85, R142). -/
theorem exec_bit_of_not_valid {b : Bool} {s : State} (h : s.valid = false) :
    exec (.bit b) s = .fault (.notInitialised (.command (encode (.bit b))) (s.markFault .notInitialised)) := by
  rcases whenConstructed_cases (.bit b) s (s.bitStep b) with ⟨hv, -⟩ | ⟨-, e⟩
  · exact absurd (h.symm.trans hv) (by decide)
  · exact e

theorem feedbackDriving_eq_ite (m : Mode) (x y : Bool) : feedbackDriving m x y = if m = .scramble then y else x := by
  cases m <;> rfl

theorem encode_bit_getLsbD_zero (b : Bool) : (encode (.bit b)).getLsbD 0 = b := by
  cases b <;> decide

/-- Settles O12: BIT's word is of its row in the opcode map, and the `VALID` check answers with one engine step or the fault. -/
theorem bitRunsOneEngineStep : Obligations.BitRunsOneEngineStep := by
  refine ⟨fun b => ⟨(Laws.OpcodeRow.bit b).1, encode_bit_getLsbD_zero b⟩, fun b s hv => ?_,
    fun b s => exec_bit_of_not_valid, fun b s hv hreg => ⟨_, exec_bit_of_valid hv, ?_⟩, fun s hv hmode hreg => ?_⟩
  · rw [exec_bit_of_valid hv, ← feedbackDriving_eq_ite]
    rfl
  · have output : (engineStep s.mode 0x00 b).2 = b := Bool.xor_false b
    rw [State.bitStep, State.respond_responses, State.setReg_responses, hreg, output, zext8]
  · have output : engineStep s.mode s.reg false = (0x11, true) := by rw [hmode, hreg]; decide
    rw [exec_bit_of_valid hv, State.bitStep, output]
    rfl

end Sys2Proof.Machine
end

