-- ==== Sys2Proof/Proofs/ByteCommand.lean ====
section
/-! PROOF. BYTE as one adapter byte on an instance (R103), the register it leaves (R109), and the same byte as eight BIT commands
(R110). -/

namespace Sys2Proof.Machine

/-! ### A byte's bits, and the bits of an adapter's output -/

/-- Bit `7-k` of a byte passes at bit step `k` (R42, R101). -/
theorem bitsMsbFirst_getElem? (b : Byte) {k : Nat} (hk : k < 8) : (bitsMsbFirst b)[k]? = some (b.getLsbD (7 - k)) := by
  interval_cases k <;> rfl

theorem adapterByte_msbFirst_fst (m : Mode) (r : Reg) (data : Byte) :
    (adapterByte .msbFirst m r data).1 = (engineRun m r (bitsMsbFirst data)).1 := by
  rw [adapterByte_msbFirst]

/-- The bits of an output byte are the engine's outputs, in order (R102). -/
theorem bitsMsbFirst_adapterByte (m : Mode) (r : Reg) (data : Byte) :
    bitsMsbFirst (adapterByte .msbFirst m r data).2 = (engineRun m r (bitsMsbFirst data)).2 := by
  have hlen : (engineRun m r (bitsMsbFirst data)).2.length = 8 := engineRun_length ..
  rw [adapterByte_msbFirst, bitsMsbFirst_packMsbFirst hlen]

/-- The inserted bits of a byte are the bits of the output byte in Scramble mode and of the input byte in Descramble mode. -/
theorem insertedBits_bitsMsbFirst (m : Mode) (r : Reg) (data : Byte) :
    insertedBits m r (bitsMsbFirst data) =
      bitsMsbFirst (if m = .scramble then (adapterByte .msbFirst m r data).2 else data) := by
  rw [insertedBits_eq_ite, ← bitsMsbFirst_adapterByte, ← apply_ite bitsMsbFirst]

/-- After a byte `REG` is the low seven bits of the byte whose bits were inserted, nothing of the old register being left (R109). -/
theorem adapterByte_msbFirst_fst_eq_extractLsb' (m : Mode) (r : Reg) (data : Byte) :
    (adapterByte .msbFirst m r data).1 =
      (if m = .scramble then (adapterByte .msbFirst m r data).2 else data).extractLsb' 0 7 := by
  refine BitVec.eq_of_getLsbD_eq fun j hj => Option.some.inj ?_
  have hlen : (bitsMsbFirst data).length = 8 := rfl
  have window := insertedBits_getElem?_eq_engineRun_getLsbD m r (bitsMsbFirst data) hj (by omega)
  rw [insertedBits_bitsMsbFirst, hlen, bitsMsbFirst_getElem? _ (by omega)] at window
  have hidx : 7 - (8 - 1 - j) = j := by omega
  rw [adapterByte_msbFirst_fst, ← window, hidx, BitVec.getLsbD_extractLsb', Nat.zero_add, decide_eq_true hj, Bool.true_and]

/-! ### The command -/

/-- The `VALID` check passes a constructed instance (R142). -/
theorem whenConstructed_of_valid {i : Instr} {s done : State} (h : s.valid = true) :
    whenConstructed i s done = .next done :=
  if_pos h

/-- The `VALID` check faults before construction (R142). -/
theorem whenConstructed_of_not_valid {i : Instr} {s done : State} (h : s.valid = false) :
    whenConstructed i s done = .fault (.notInitialised (.command (encode i)) (s.markFault .notInitialised)) :=
  if_neg (Bool.eq_false_iff.mp h)

/-- BYTE of a constructed instance is done, and writes `REG` and one response alone (R103, R142). -/
theorem exec_byte_of_valid {data : Byte} {s : State} (h : s.valid = true) : exec (.byte data) s =
    .next { s with reg := (adapterByte .msbFirst s.mode s.reg data).1,
                   responses := s.responses ++ [.data (adapterByte .msbFirst s.mode s.reg data).2] } :=
  whenConstructed_of_valid h

/-- BYTE before construction faults (R103, R142). -/
theorem exec_byte_of_not_valid {data : Byte} {s : State} (h : s.valid = false) :
    exec (.byte data) s = .fault (.notInitialised (.command (encode (.byte data))) (s.markFault .notInitialised)) :=
  whenConstructed_of_not_valid h

theorem encode_byte_extractLsb' (data : Byte) : (encode (.byte data)).extractLsb' 0 8 = data :=
  BitVec.extractLsb'_append_eq_right

/-- Settles O13: BYTE's word is of its row in the opcode map, the adapter byte is the engine over the byte's bits, and the corner
cases are values of the adapter byte. -/
theorem byteRunsEightEngineSteps : Obligations.ByteRunsEightEngineSteps := by
  refine ⟨fun data => ⟨(Laws.OpcodeRow.byte data).1, encode_byte_extractLsb' data⟩, fun data s hv => ?_,
    fun data s => exec_byte_of_not_valid, fun s hv hreg => ?_, fun s hv hreg => ?_, fun s hv hmode hreg => ?_⟩
  · refine ⟨bitsMsbFirst data, (adapterByte .msbFirst s.mode s.reg data).2, rfl, fun k => bitsMsbFirst_getElem? data,
      fun k hk => ?_, ?_⟩
    · rw [← bitsMsbFirst_adapterByte, bitsMsbFirst_getElem? _ hk]
    · rw [exec_byte_of_valid hv, adapterByte_msbFirst_fst]
  · have fixed : adapterByte .msbFirst s.mode s.reg 0x00 = (s.reg, 0x00) := by
      rw [hreg]
      cases s.mode <;> decide
    rw [exec_byte_of_valid hv, fixed]
  · have fixed : adapterByte .msbFirst s.mode s.reg 0xFF = (s.reg, 0xFF) := by
      rw [hreg]
      cases s.mode <;> decide
    rw [exec_byte_of_valid hv, fixed]
  · have output : adapterByte .msbFirst s.mode s.reg 0x00 = (0x0E, 0x0E) := by
      rw [hmode, hreg]
      decide
    rw [exec_byte_of_valid hv, output]

/-- Settles O46: eight bits are inserted, so the register is the low seven of them. -/
theorem registerAfterAByte : Obligations.RegisterAfterAByte := by
  intro data s hv
  refine ⟨_, _, exec_byte_of_valid hv, rfl, ?_⟩
  rw [← apply_ite (fun b : Byte => b.extractLsb' 0 7)]
  exact adapterByte_msbFirst_fst_eq_extractLsb' s.mode s.reg data

/-! ### The same byte as BIT commands -/

/-- A step of a constructed instance that takes a BIT's word (R85). -/
theorem step_bit {b : Bool} {s : State} {rest : List HostCall} (hr : s.Ready) (hv : s.valid = true)
    (hp : s.pending = .command (encode (.bit b)) :: rest) :
    step s = .next (State.bitStep b { s with pending := rest }) := by
  rw [step_call hr hp, runCall, runCommand_ok (decode_encode _)]
  exact exec_bit_of_valid hv

/-- BIT words pending, and nothing else, run to the engine over their bits, one response each (R44, R85). -/
theorem run_bits (xs : List Bool) {s : State} (hr : s.Ready) (hv : s.valid = true)
    (hp : s.pending = xs.map fun x => .command (encode (.bit x))) :
    run xs.length s = .next { s with
      reg := (engineRun s.mode s.reg xs).1, pending := [],
      responses := s.responses ++ (engineRun s.mode s.reg xs).2.map fun y => .data (zext8 y) } := by
  induction xs generalizing s with
  | nil =>
    have hp : s.pending = [] := hp
    rw [List.length_nil, run_zero, engineRun_nil, List.map_nil, List.append_nil, ← hp]
  | cons x xs ih =>
    have rest := ih (s := State.bitStep x { s with pending := xs.map fun x => .command (encode (.bit x)) }) hr hv rfl
    rw [List.length_cons, run_succ (step_bit hr hv hp), rest]
    simp only [State.bitStep, State.respond, State.setReg, engineRun_cons, List.map_cons, List.append_assoc,
      List.singleton_append]

/-- Settles O47: the eight BITs and the BYTE both pass the byte's eight bits through the engine. -/
theorem byteIsEightBits : Obligations.ByteIsEightBits := by
  intro data s hr hv
  refine ⟨_, _, _, exec_byte_of_valid hv, rfl, run_bits (bitsMsbFirst data) hr hv rfl, ?_, ?_⟩
  · exact (adapterByte_msbFirst_fst s.mode s.reg data).symm
  · rw [← bitsMsbFirst_adapterByte]
    rfl

end Sys2Proof.Machine
end

