-- ==== Sys2Proof/Proofs/SerialAdapter.lean ====
section
/-! PROOF. The bit-serial adapter (R104) as a simulation of the adapter byte (R103): a micro-step at `K` is the bit step of index
`K` on `REG` and `ACC`. -/

namespace Sys2Proof.Machine

/-- `REG` and `OUT` after the first `n` bit steps of R103's loop. -/
def bitSteps (m : Mode) (r : Reg) (data : Byte) (n : Nat) : Reg × Byte :=
  (List.range n).foldl (adapterBitStep .msbFirst m data) (r, 0)

theorem bitSteps_succ (m : Mode) (r : Reg) (data : Byte) (n : Nat) :
    bitSteps m r data (n + 1) = adapterBitStep .msbFirst m data (bitSteps m r data n) n := by
  simp [bitSteps, List.range_succ]

theorem bitSteps_eight (m : Mode) (r : Reg) (data : Byte) : bitSteps m r data 8 = adapterByte .msbFirst m r data := rfl

/-- The last micro-step of a run, split off. -/
theorem serialRun_succ (n : Nat) (m : Serial) : serialRun (n + 1) m = serialStep (serialRun n m) := by
  induction n generalizing m with
  | zero => rfl
  | succ n ih => exact ih (serialStep m)

/-- A micro-step is the bit step of index `K` on `REG` and `ACC`, and counts `K` up (R104). -/
theorem serialStep_eq_adapterBitStep (m : Serial) : serialStep m = { m with
    reg := (adapterBitStep .msbFirst m.mode m.data (m.reg, m.acc) m.k.toNat).1, k := m.k + 1,
    acc := (adapterBitStep .msbFirst m.mode m.data (m.reg, m.acc) m.k.toNat).2 } := rfl

/-- After `n` micro-steps from the load, `K` is `n` modulo 8, and `REG` and `ACC` are R103's after `n` bit steps. -/
theorem serialRun_serialLoad (m : Mode) (r : Reg) (data : Byte) {n : Nat} (hn : n ≤ 8) :
    serialRun n (serialLoad m r data) =
      ⟨(bitSteps m r data n).1, m, data, BitVec.ofNat 3 n, (bitSteps m r data n).2⟩ := by
  induction n with
  | zero => rfl
  | succ n ih =>
    have hk : (BitVec.ofNat 3 n).toNat = n := Nat.mod_eq_of_lt (by omega)
    rw [serialRun_succ, ih (by omega), serialStep_eq_adapterBitStep, bitSteps_succ, BitVec.ofNat_add]
    simp only [hk, Prod.mk.eta]
    rfl

/-- Settles O48: eight micro-steps are the eight bit steps of BYTE, and count `K` round to 0. -/
theorem serialAdapterAgreesWithByte : Obligations.SerialAdapterAgreesWithByte := by
  intro data s hv
  rw [serialRun_serialLoad s.mode s.reg data (le_refl 8), bitSteps_eight]
  exact ⟨rfl, exec_byte_of_valid hv⟩

end Sys2Proof.Machine
end

