-- ==== Sys2Proof/Proofs/BitOrder.lean ====
section
/-! PROOF. The named alternative LSB_FIRST (R112): the engine over a byte's bits in reverse order, the outputs packed in reverse
order, so the MSB-first adapter between two reversals. -/

namespace Sys2Proof.Machine

theorem bitsMsbFirst_rev8 (b : Byte) : bitsMsbFirst (rev8 b) = (bitsMsbFirst b).reverse :=
  bitsMsbFirst_packMsbFirst rfl

theorem rev8_packMsbFirst {ys : List Bool} (h : ys.length = 8) : rev8 (packMsbFirst ys) = packMsbFirst ys.reverse := by
  rw [rev8, bitsMsbFirst_packMsbFirst h]

/-- Reversed, a byte's bit list has bit `k` at place `k`. -/
theorem reverse_bitsMsbFirst_getElem? (b : Byte) {k : Nat} (hk : k < 8) :
    (bitsMsbFirst b).reverse[k]? = some (b.getLsbD k) := by
  interval_cases k <;> rfl

theorem rev8_getLsbD (b : Byte) {i : Nat} (hi : i < 8) : (rev8 b).getLsbD i = b.getLsbD (7 - i) := by
  have bit := reverse_bitsMsbFirst_getElem? (rev8 b) hi
  rw [bitsMsbFirst_rev8, List.reverse_reverse, bitsMsbFirst_getElem? b hi] at bit
  exact (Option.some.inj bit).symm

/-- Placing eight output bits in turn, the first in bit 0, packs them in reverse order (R112). -/
theorem placeBit_lsbFirst_eight (a b c d e f g h : Bool) :
    [(0, a), (1, b), (2, c), (3, d), (4, e), (5, f), (6, g), (7, h)].foldl
      (fun out p => placeBit .lsbFirst out p.1 p.2) 0 = packMsbFirst [a, b, c, d, e, f, g, h].reverse := by
  revert a b c d e f g h
  decide

/-- One byte, LSB first, is the engine over its bits from bit 0 up, the outputs packed from bit 0 up (R112). -/
theorem adapterByte_lsbFirst (m : Mode) (r : Reg) (data : Byte) :
    adapterByte .lsbFirst m r data =
      ((engineRun m r (bitsMsbFirst data).reverse).1,
        packMsbFirst (engineRun m r (bitsMsbFirst data).reverse).2.reverse) :=
  Prod.ext rfl (placeBit_lsbFirst_eight ..)

/-- LSB first is MSB first between two reversals (R112). -/
theorem adapterByte_lsbFirst_eq_rev8 (m : Mode) (r : Reg) (b : Byte) : adapterByte .lsbFirst m r b =
    ((adapterByte .msbFirst m r (rev8 b)).1, rev8 (adapterByte .msbFirst m r (rev8 b)).2) := by
  have hlen : (engineRun m r (bitsMsbFirst b).reverse).2.length = 8 := engineRun_length ..
  rw [adapterByte_lsbFirst, adapterByte_msbFirst, bitsMsbFirst_rev8, rev8_packMsbFirst hlen]

/-- Output bit `k` of the LSB-first adapter stands in bit `k` (R112). -/
theorem engineRun_reverse_getElem? (m : Mode) (r : Reg) (b : Byte) {k : Nat} (hk : k < 8) :
    (engineRun m r (bitsMsbFirst b).reverse).2[k]? = some ((adapterByte .lsbFirst m r b).2.getLsbD k) := by
  have hlen : (engineRun m r (bitsMsbFirst b).reverse).2.reverse.length = 8 :=
    List.length_reverse.trans (engineRun_length ..)
  rw [← reverse_bitsMsbFirst_getElem? _ hk, adapterByte_lsbFirst, bitsMsbFirst_packMsbFirst hlen, List.reverse_reverse]

/-- Settles O50: the two orders pass a byte's bits through the engine in opposite orders. -/
theorem lsbFirstIsMsbFirstReversed : Obligations.LsbFirstIsMsbFirstReversed :=
  ⟨rfl, fun b _ => rev8_getLsbD b, adapterByte_lsbFirst_eq_rev8, fun m r b _ => engineRun_reverse_getElem? m r b⟩

end Sys2Proof.Machine
end

