-- ==== Sys2Proof/Proofs/ProcessTransaction.lean ====
section
/-! PROOF. The PROCESS transaction (R106): when it completes, the length of its output (R107), and its transparency to chunking
(R108). -/

namespace Sys2Proof.Machine

/-- The checks pass a PROCESS of no bytes, constructed or not (R106). -/
theorem processCheck_nil (s : State) : processCheck 0 [] s = none := by
  simp [processCheck]

/-- A PROCESS with a matching claim, of a constructed instance or of no bytes, is the adapter over its bytes (R106, R107). -/
theorem processTransaction_of_matching_claim {s : State} {bs : List Byte} (h : s.valid = true ∨ bs = []) :
    processTransaction bs.length bs s =
      .ok (s.setReg (adapterRun .msbFirst s.mode s.reg bs).1, (adapterRun .msbFirst s.mode s.reg bs).2) := by
  rcases h with hv | rfl
  · exact processTransaction_eq_adapterRun hv bs
  · rw [List.length_nil, processTransaction, processCheck_nil]
    rfl

/-- A PROCESS that completes has a matching claim, and bytes only if the instance is constructed (R142, R143). -/
theorem matching_claim_of_processTransaction {n : Nat} {bs : List Byte} {s : State} {p : State × List Byte}
    (h : processTransaction n bs s = .ok p) : bs.length = n ∧ (s.valid = true ∨ bs = []) := by
  rw [processTransaction] at h
  rcases processCheck_cases n bs s with ⟨_, e⟩ | ⟨_, _, _, e⟩ | ⟨hl, hv, e⟩
  · rw [e] at h; cases h
  · rw [e] at h; cases h
  · refine ⟨hl, hv.symm.imp_right fun hn => ?_⟩
    exact List.eq_nil_of_length_eq_zero (hl.trans hn)

/-- Settles O52: a PROCESS that completes is the adapter's run, which has one output per input. -/
theorem processPreservesLength : Obligations.ProcessPreservesLength := by
  refine ⟨fun s bs h => ⟨_, _, processTransaction_of_matching_claim h, adapterRun_length .., rfl⟩,
    fun s t n bs out h => ?_⟩
  obtain ⟨rfl, hv⟩ := matching_claim_of_processTransaction h
  rw [processTransaction_of_matching_claim hv] at h
  cases h
  exact ⟨rfl, adapterRun_length ..⟩

/-- Settles O53: PROCESS is the adapter's run, and a run over a concatenation is the two runs in turn. -/
theorem chunkingTransparency : Obligations.ChunkingTransparency := by
  intro s xs ys hv
  have second := processTransaction_eq_adapterRun (s := s.setReg (adapterRun .msbFirst s.mode s.reg xs).1) hv ys
  refine ⟨_, _, _, _, processTransaction_eq_adapterRun hv xs, second, ?_⟩
  rw [processTransaction_eq_adapterRun hv, adapterRun_append]
  rfl

/-- Settles O24: the checks pass, and there are no BYTE commands to put ahead of the later calls. -/
theorem emptyProcessIsANoOp : Obligations.EmptyProcessIsANoOp := by
  intro s rest hr hp
  rw [step_call hr hp, runCall, acceptProcess, processCheck_nil]
  rfl

end Sys2Proof.Machine
end

