-- ==== Sys2Proof/Proofs/Construction.lean ====
section
/-! PROOF. INIT and the seedless constructor (R120, R121, R123), and that nothing else writes `MODE` (R124). -/

namespace Sys2Proof.Machine

/-! ### INIT's word -/

/-- The fields of INIT's word are its operands (R62): the word decodes to that INIT. -/
theorem fields_encode_init (d : Mode) (seed : Reg) :
    fieldD (encode (.init d seed)) = d ∧ fieldSeed (encode (.init d seed)) = seed := by
  rcases decode_ok_cases (decode_encode (.init d seed)) with ⟨-, -, -, e⟩ | ⟨-, -, -, e⟩ | ⟨-, -, -, e⟩
  · injection e with hd hseed
    exact ⟨hd.symm, hseed.symm⟩
  · cases e
  · cases e

theorem toBit_eq_beq_descramble (d : Mode) : d.toBit = (d == .descramble) := by
  cases d <;> rfl

theorem encode_init_getLsbD_seven (d : Mode) (seed : Reg) :
    (encode (.init d seed)).getLsbD 7 = (d == .descramble) := by
  rw [← toBit_eq_beq_descramble, ← Mode.toBit_ofBit ((encode (.init d seed)).getLsbD 7), ← fieldD,
    (fields_encode_init d seed).1]

/-! ### The construction -/

/-- INIT is done in every state (R120). -/
theorem exec_init (d : Mode) (seed : Reg) (s : State) :
    exec (.init d seed) s = .next ((s.construct d seed).respond .ack) := rfl

/-- Construction writes over `REG` and `MODE` (R123). -/
theorem State.construct_of_reg_mode (d : Mode) (seed r : Reg) (m : Mode) (s : State) :
    State.construct d seed { s with reg := r, mode := m } = s.construct d seed := rfl

/-- Settles O9: INIT's word is of its row in the opcode map and its fields are the operands; INIT constructs and acknowledges. -/
theorem initConstructs : Obligations.InitConstructs :=
  ⟨fun d seed => ⟨(Laws.OpcodeRow.init d seed).1, encode_init_getLsbD_seven d seed, (fields_encode_init d seed).2⟩,
    exec_init, by decide⟩

/-- Settles O10: construction writes over the old `REG` and `MODE`. -/
theorem initForgetsTheOldInstance : Obligations.InitForgetsTheOldInstance := by
  intro d seed r m s
  refine ⟨?_, _, exec_init d seed s, ?_, ?_⟩
  · rw [exec_init, exec_init, State.construct_of_reg_mode]
  · rw [State.respond_reg, State.construct_reg]
  · rw [State.respond_mode, State.construct_mode]

/-- Settles O11: the step takes the call off and runs INIT with the default seed. -/
theorem newConstructsWithDefaultSeed : Obligations.NewConstructsWithDefaultSeed := by
  intro d rest s hr hp
  rw [step_call hr hp]
  exact exec_init d Config.defaultSeed { s with pending := rest }

/-! ### What writes MODE -/

/-- A command leaves the calls not yet taken as they are. -/
theorem exec_next_pending {i : Instr} {s t : State} (h : exec i s = .next t) : t.pending = s.pending := by
  rcases exec_next_cases h with ⟨d, seed, -, rfl⟩ | ⟨b, -, -, rfl⟩ | ⟨data, -, -, rfl⟩ <;> rfl

/-- BIT and BYTE write `REG` and respond, so a command that changes `MODE` is an INIT (R124). -/
theorem init_of_exec_mode_ne {i : Instr} {s t : State} (h : exec i s = .next t) (hm : t.mode ≠ s.mode) :
    ∃ d seed, i = .init d seed := by
  rcases exec_next_cases h with ⟨d, seed, rfl, -⟩ | ⟨b, -, -, rfl⟩ | ⟨data, -, -, rfl⟩
  · exact ⟨d, seed, rfl⟩
  · exact absurd rfl hm
  · exact absurd rfl hm

/-- Settles O16: a step that idles or takes a PROCESS keeps `MODE`, and one that runs a command changes it by INIT alone. -/
theorem onlyInitWritesMode : Obligations.OnlyInitWritesMode := by
  refine ⟨fun _ _ _ => init_of_exec_mode_ne, fun s t h hm => ?_⟩
  obtain ⟨-, ⟨-, rfl⟩ | ⟨w, i, rest, hp, hd, he⟩ | ⟨d, rest, hp, he⟩ | ⟨n, bytesIn, rest, -, -, -, rfl⟩⟩ :=
    step_next_cases h
  · exact absurd rfl hm
  · obtain ⟨d, seed, rfl⟩ := init_of_exec_mode_ne he hm
    exact ⟨.command w, by rw [hp, exec_next_pending he], .inr ⟨w, d, seed, rfl, hd⟩⟩
  · exact ⟨.newScrambler d, by rw [hp, exec_next_pending he], .inl ⟨d, rfl⟩⟩
  · exact absurd rfl hm

end Sys2Proof.Machine
end

