-- ==== Sys2Proof/Proofs/Faults.lean ====
section
/-! PROOF. The faults: data before construction (R142), a wrong claimed length (R143), and the state a fault leaves (R149). -/

namespace Sys2Proof.Machine

/-! ### Data before construction -/

/-- A command other than INIT faults before construction (R142). -/
theorem exec_data_of_not_valid {i : Instr} {s : State} (hi : ∀ d seed, i ≠ .init d seed) (hv : s.valid = false) :
    exec i s = .fault (.notInitialised (.command (encode i)) (s.markFault .notInitialised)) := by
  cases i with
  | init d seed => exact absurd rfl (hi d seed)
  | bit b => exact exec_bit_of_not_valid hv
  | byte data => exact exec_byte_of_not_valid hv

/-- The record of a command word that faults is the word as issued, for it is the word its command is encoded with (R146). -/
theorem step_data_of_not_valid {s : State} {w : Word} {i : Instr} {rest : List HostCall} (hr : s.Ready)
    (hv : s.valid = false) (hp : s.pending = .command w :: rest) (hd : decode w = .ok i)
    (hi : ∀ d seed, i ≠ .init d seed) :
    step s = .fault (.notInitialised (.command w) { s with pending := rest, fault := some .notInitialised }) := by
  rw [step_call hr hp, runCall, runCommand_ok hd, exec_data_of_not_valid (s := { s with pending := rest }) hi hv,
    encode_of_decode hd]
  rfl

/-! ### The checks of a PROCESS -/

section Process
variable {s : State} {n : Nat} {bytesIn : List Byte}

theorem processCheck_of_wrong_claim (h : bytesIn.length ≠ n) :
    processCheck n bytesIn s = some (.lengthMismatch n bytesIn.length (s.markFault .lengthMismatch)) :=
  if_pos h

theorem processCheck_of_not_valid (hl : bytesIn.length = n) (hn : 0 < n) (hv : s.valid = false) :
    processCheck n bytesIn s = some (.notInitialised (.process n bytesIn) (s.markFault .notInitialised)) := by
  rw [processCheck, if_neg (not_not_intro hl), if_pos ⟨hn, hv⟩]
  rfl

/-- A PROCESS that fails its checks faults before any byte (R106). -/
theorem step_process_fault {rest : List HostCall} {f : Fault} (hr : s.Ready)
    (hp : s.pending = .process n bytesIn :: rest)
    (hc : processCheck n bytesIn { s with pending := rest } = some f) : step s = .fault f := by
  rw [step_call hr hp, runCall, acceptProcess, hc]

theorem step_process_of_wrong_claim {rest : List HostCall} (hr : s.Ready) (hp : s.pending = .process n bytesIn :: rest)
    (hl : bytesIn.length ≠ n) :
    step s = .fault (.lengthMismatch n bytesIn.length { s with pending := rest, fault := some .lengthMismatch }) :=
  step_process_fault hr hp (processCheck_of_wrong_claim hl)

theorem step_process_of_not_valid {rest : List HostCall} (hr : s.Ready) (hp : s.pending = .process n bytesIn :: rest)
    (hl : bytesIn.length = n) (hn : 0 < n) (hv : s.valid = false) :
    step s = .fault (.notInitialised (.process n bytesIn)
      { s with pending := rest, fault := some .notInitialised }) :=
  step_process_fault hr hp (processCheck_of_not_valid hl hn hv)

end Process

/-- Settles O23: the length is the first check of a PROCESS. -/
theorem lengthMismatchFaults : Obligations.LengthMismatchFaults :=
  fun _ _ _ _ => step_process_of_wrong_claim

/-- Settles O22: BIT and BYTE are the commands other than INIT, and a PROCESS with a right claim passes to the check of `VALID`. -/
theorem dataBeforeConstructionFaults : Obligations.DataBeforeConstructionFaults := by
  intro s rest hr hv
  refine ⟨fun w b hp hd => ?_, fun w data hp hd => ?_, fun n bytesIn hp hn hl => ?_⟩
  · exact step_data_of_not_valid hr hv hp hd fun _ _ => nofun
  · exact step_data_of_not_valid hr hv hp hd fun _ _ => nofun
  · exact step_process_of_not_valid hr hp hl hn hv

/-! ### The state a fault leaves -/

/-- A step that faults, on an instance with one host at most, sets `FAULT` to its reason and takes at most the oldest call
(R149). -/
theorem step_fault_after {s : State} {f : Fault} (h : step s = .fault f) :
    s.hosts < 2 ∧ ∃ calls, f.after = { s with fault := some f.reason, pending := calls } ∧
      (calls = s.pending ∨ ∃ c, s.pending = c :: calls) := by
  rcases step_fault_cases h with ⟨r, hh, hf, rfl⟩ | ⟨c, rest, hr, hp, hc⟩
  · have same : s = { s with fault := some r } := by rw [← hf]
    exact ⟨hh, s.pending, same, .inl rfl⟩
  · exact ⟨hr.1, rest, runCall_fault_after hc, .inr ⟨c, hp⟩⟩

/-- A faulted instance is observed as that fault at every length (R149, R150, R181). -/
theorem observeRun_faulted {s : State} {r : FaultReason} (hh : s.hosts < 2) (hf : s.fault = some r) (n : Nat) :
    observeRun n s = ⟨s.responses, .fault r⟩ := by
  cases n with
  | zero => rw [observeRun, restEnd, if_neg (Nat.not_le.mpr hh), hf]
  | succ n =>
    rw [observeRun, step_faulted hh hf]
    rfl

/-- Settles O27: the state after a fault is the old one with `FAULT` set and at most the oldest call gone, and it is a faulted
instance of at most one host. -/
theorem faultChangesOnlyFault : Obligations.FaultChangesOnlyFault := by
  intro s f h
  obtain ⟨hh, calls, hafter, hcalls⟩ := step_fault_after h
  rw [hafter]
  exact ⟨rfl, hcalls, observeRun_faulted hh rfl⟩

end Sys2Proof.Machine
end

