-- ==== Sys2Proof/Proofs/Refusals.lean ====
section
/-! PROOF. The refusals: words the decoder does not decode (R144), and two or more hosts on one instance (R145). -/

namespace Sys2Proof

/-! ### Reserved words -/

theorem op_cases (w : Word) : w.extractLsb' 14 2 = 0b00#2 ∨ w.extractLsb' 14 2 = 0b01#2 ∨
    w.extractLsb' 14 2 = 0b10#2 ∨ w.extractLsb' 14 2 = 0b11#2 := by
  generalize w.extractLsb' 14 2 = op
  revert op
  decide

/-- A check that answers an error if it fails and a command if it passes answers no command exactly when it fails. -/
theorem forall_ite_error_ne_ok_iff {c : Prop} [Decidable c] {e : DecodeRefusal} {j : Instr} :
    (∀ i, (if c then Except.error e else .ok j) ≠ Except.ok i) ↔ c := by
  split_ifs with h
  · exact iff_of_true (fun _ => nofun) h
  · exact iff_of_false (fun hj => hj j rfl) h

/-- The words that are no command (R66, R144). -/
theorem forall_decode_ne_ok_iff (w : Word) : (∀ i, decode w ≠ .ok i) ↔
    (w.extractLsb' 14 2 = 0b11#2 ∨ (w.extractLsb' 14 2 = 0b01#2 ∧ reserved13to1 w ≠ 0) ∨
      (w.extractLsb' 14 2 ≠ 0b01#2 ∧ reserved13to8 w ≠ 0)) := by
  rcases op_cases w with h | h | h | h
  · rw [decode_of_op00 h, forall_ite_error_ne_ok_iff, h]
    simp
  · rw [decode_of_op01 h, forall_ite_error_ne_ok_iff, h]
    simp
  · rw [decode_of_op10 h, forall_ite_error_ne_ok_iff, h]
    simp
  · rw [decode_of_op11 h, h]
    simp

namespace Machine

theorem step_of_decode_error {s : State} {w : Word} {e : DecodeRefusal} {rest : List HostCall} (hr : s.Ready)
    (hp : s.pending = .command w :: rest) (hd : decode w = .error e) : step s = .refused (.reservedEncoding w) := by
  rw [step_call hr hp, runCall, runCommand_error hd]

/-- Settles O21: the decoder's table by `OP`, and decoding comes before any look at `VALID`. -/
theorem reservedWordsAreRefused : Obligations.ReservedWordsAreRefused := by
  refine ⟨forall_decode_ne_ok_iff, fun s w rest hr hp hd => ?_⟩
  obtain ⟨e, he⟩ := exists_decode_error_iff.mpr (not_exists.mpr hd)
  exact step_of_decode_error hr hp he

/-! ### What a step keeps -/

theorem exec_next_hosts {i : Instr} {s t : State} (h : exec i s = .next t) : t.hosts = s.hosts := by
  rcases exec_next_cases h with ⟨d, seed, -, rfl⟩ | ⟨b, -, -, rfl⟩ | ⟨data, -, -, rfl⟩ <;> rfl

theorem exec_next_fault {i : Instr} {s t : State} (h : exec i s = .next t) : t.fault = s.fault := by
  rcases exec_next_cases h with ⟨d, seed, -, rfl⟩ | ⟨b, -, -, rfl⟩ | ⟨data, -, -, rfl⟩ <;> rfl

/-- Beside running a command a step writes the pending calls alone, so it keeps what every command keeps. -/
theorem step_next_keeps {α : Type} {part : State → α}
    (hpending : ∀ (s : State) (calls : List HostCall), part { s with pending := calls } = part s)
    (hexec : ∀ {i : Instr} {s t : State}, exec i s = .next t → part t = part s)
    {s t : State} (h : step s = .next t) : part t = part s := by
  obtain ⟨-, ⟨-, rfl⟩ | ⟨w, i, rest, -, -, he⟩ | ⟨d, rest, -, he⟩ | ⟨n, bytesIn, rest, -, -, -, rfl⟩⟩ :=
    step_next_cases h
  · rfl
  · exact (hexec he).trans (hpending s rest)
  · exact (hexec he).trans (hpending s rest)
  · exact hpending s _

theorem step_next_hosts {s t : State} (h : step s = .next t) : t.hosts = s.hosts :=
  step_next_keeps (fun _ _ => rfl) exec_next_hosts h

theorem step_next_fault {s t : State} (h : step s = .next t) : t.fault = s.fault :=
  step_next_keeps (fun _ _ => rfl) exec_next_fault h

/-! ### Two or more hosts -/

/-- A refusal ends a run with the responses already given (R69, R181). -/
theorem observeRun_succ_of_refused {s : State} {r : Refusal} (h : step s = .refused r) (n : Nat) :
    observeRun (n + 1) s = ⟨s.responses, .refused (refusalReason r)⟩ := by
  rw [observeRun, h]

/-- Settles O26: no command writes the number of hosts, and with two or more the first step of a run is refused. -/
theorem concurrentUseHasNoRun : Obligations.ConcurrentUseHasNoRun :=
  ⟨rfl, fun _ _ => step_next_hosts, fun _ n hh =>
    ⟨step_concurrent hh, observeRun_succ_of_refused (step_concurrent hh) n⟩⟩

end Machine
end Sys2Proof
end

