-- ==== Sys2Proof/Proofs/OutcomeOrder.lean ====
section
/-! PROOF. The order in which outcomes are taken (R147), and that an instance that faulted or was refused stops for good
(R150). -/

namespace Sys2Proof.Machine

/-- Settles O25: the step looks at the hosts, then at `FAULT`, then decodes; a PROCESS looks at its length, then at `VALID`. -/
theorem outcomePriority : Obligations.OutcomePriority :=
  ⟨fun _ => step_concurrent, fun _ _ => step_faulted, fun _ _ _ _ => step_of_decode_error,
    fun _ _ _ _ hr hp =>
      ⟨fun hl => ⟨_, step_process_of_wrong_claim hr hp hl⟩,
        fun hl hn hv => ⟨_, step_process_of_not_valid hr hp hl hn hv⟩⟩⟩

/-! ### Refused steps -/

/-- The one call that is refused is a word that does not decode (R144). -/
theorem runCall_refused {c : HostCall} {s : State} {r : Refusal} (h : runCall c s = .refused r) :
    ∃ w e, c = .command w ∧ decode w = .error e := by
  cases c with
  | command w =>
    cases hd : decode w with
    | error e => exact ⟨w, e, rfl, hd⟩
    | ok i =>
      rw [runCall, runCommand_ok hd] at h
      exact absurd h (exec_not_refused i s r)
  | newScrambler d => exact absurd h (exec_not_refused (newInstr d) s r)
  | process n bytesIn =>
    rw [runCall, acceptProcess] at h
    rcases processCheck_cases n bytesIn s with ⟨_, e⟩ | ⟨_, _, _, e⟩ | ⟨_, _, e⟩ <;> rw [e] at h <;> cases h

/-- Everything a step that is refused can have met: two or more hosts, or a word that does not decode (R144, R145). -/
theorem step_refused_cases {s : State} {r : Refusal} (h : step s = .refused r) :
    2 ≤ s.hosts ∨ (s.Ready ∧ ∃ w e rest, s.pending = .command w :: rest ∧ decode w = .error e) := by
  refine (Nat.lt_or_ge s.hosts 2).symm.imp_right fun hh => ?_
  rcases Option.eq_none_or_eq_some s.fault with hf | ⟨reason, hf⟩
  · have hr : s.Ready := ⟨hh, hf⟩
    cases hp : s.pending with
    | nil => rw [step_idle hr hp] at h; cases h
    | cons c rest =>
      rw [step_call hr hp] at h
      obtain ⟨w, e, rfl, hd⟩ := runCall_refused h
      exact ⟨hr, w, e, rest, rfl, hd⟩
  · rw [step_faulted hh hf] at h
    cases h

/-- A refused instance is refused again, whatever calls are issued behind those pending (R150). -/
theorem step_refused_of_more_calls {s : State} {r : Refusal} (h : step s = .refused r) (calls : List HostCall) :
    ∃ r', step { s with pending := s.pending ++ calls } = .refused r' := by
  rcases step_refused_cases h with hh | ⟨hr, w, e, rest, hp, hd⟩
  · exact ⟨_, step_concurrent hh⟩
  · exact ⟨_, step_of_decode_error (rest := rest ++ calls) hr (congrArg (· ++ calls) hp) hd⟩

/-- Settles O28: no command writes `FAULT`; a faulted state answers `noFurtherStep`, and a refused one is refused again. -/
theorem faultedOrRefusedTakesNoFurtherStep : Obligations.FaultedOrRefusedTakesNoFurtherStep := by
  refine ⟨fun _ _ _ => exec_next_fault, fun _ _ => step_next_fault, fun s f calls t h => ?_, fun s r calls t h => ?_⟩
  · obtain ⟨hh, taken, hafter, -⟩ := step_fault_after h
    have hhosts : f.after.hosts < 2 := by rwa [hafter]
    have hfault : f.after.fault = some f.reason := congrArg State.fault hafter
    exact ne_of_eq_of_ne (step_faulted hhosts hfault) nofun
  · obtain ⟨r', hr'⟩ := step_refused_of_more_calls h calls
    exact ne_of_eq_of_ne hr' nofun

end Sys2Proof.Machine
end

