-- ==== Sys2Proof/Proofs/WordMeaning.lean ====
section
/-! PROOF. The meaning of a word (R62 to R66, R70): decoder and encoder as inverses, the rows of the opcode map as the words of their
commands, and each operand as a field of its word. -/

namespace Sys2Proof

/-- Settles O1: the decoder's values on the fourteen words. -/
theorem tableWordsDecode : Obligations.TableWordsDecode := by
  unfold Obligations.TableWordsDecode
  decide

/-- Settles O2: decoding undoes encoding, for each command's layout. -/
theorem decodeOfEncode : Obligations.DecodeOfEncode :=
  fun i _ => decode_encode i

/-- The operand types hold only legal values (R65). -/
theorem Instr.wellFormed_eq_true (i : Instr) : i.wellFormed = true := by
  cases i <;> rfl

/-- Settles O3: encoding undoes decoding, and no instruction is ill-formed. -/
theorem encodeOfDecode : Obligations.EncodeOfDecode :=
  fun _ i h => ⟨i.wellFormed_eq_true, encode_of_decode h⟩

/-! ### The opcode map -/

section Masks
variable {w p : Word}

/-- A field that a mask fixes is the field of the pattern (R70). -/
theorem extractLsb'_of_and {mask : Word} {i n : Nat} (hmask : mask.extractLsb' i n = BitVec.allOnes n)
    (h : w &&& mask = p) : w.extractLsb' i n = p.extractLsb' i n := by
  rw [← h, BitVec.extractLsb'_and, hmask, BitVec.and_allOnes]

theorem decode_of_init_row (h : w &&& 0xFF00#16 = 0x0000#16) :
    decode w = .ok (.init (fieldD w) (fieldSeed w)) := by
  have reserved : reserved13to8 w = 0 := extractLsb'_of_and (by decide) h
  rw [decode_of_op00 (extractLsb'_of_and (by decide) h), if_neg (not_not_intro reserved)]

theorem decode_of_bit_row (h : w &&& 0xFFFE#16 = 0x4000#16) : decode w = .ok (.bit (fieldB w)) := by
  have reserved : reserved13to1 w = 0 := extractLsb'_of_and (by decide) h
  rw [decode_of_op01 (extractLsb'_of_and (by decide) h), if_neg (not_not_intro reserved)]

theorem decode_of_byte_row (h : w &&& 0xFF00#16 = 0x8000#16) : decode w = .ok (.byte (fieldData w)) := by
  have reserved : reserved13to8 w = 0 := extractLsb'_of_and (by decide) h
  rw [decode_of_op10 (extractLsb'_of_and (by decide) h), if_neg (not_not_intro reserved)]

end Masks

/-- Settles O5: a legal word is its command's word, which agrees with the command's row; and a row's mask fixes all that the decoder
asks of a word. -/
theorem opcodeMapMatchesDecoder : Obligations.OpcodeMapMatchesDecoder := by
  refine fun w => ⟨⟨?_, fun h => ⟨_, _, decode_of_init_row h⟩⟩, ⟨?_, fun h => ⟨_, decode_of_bit_row h⟩⟩,
    ⟨?_, fun h => ⟨_, decode_of_byte_row h⟩⟩⟩
  · rintro ⟨d, seed, h⟩
    exact encode_of_decode h ▸ (Laws.OpcodeRow.init d seed).1
  · rintro ⟨b, h⟩
    exact encode_of_decode h ▸ (Laws.OpcodeRow.bit b).1
  · rintro ⟨data, h⟩
    exact encode_of_decode h ▸ (Laws.OpcodeRow.byte data).1

/-! ### The operands -/

section Operands
variable {w : Word}

theorem operands_of_decode_init {d : Mode} {seed : Reg} (h : decode w = .ok (.init d seed)) :
    d = fieldD w ∧ seed = fieldSeed w := by
  rcases decode_ok_cases h with ⟨-, -, -, e⟩ | ⟨-, -, -, e⟩ | ⟨-, -, -, e⟩ <;> cases e
  exact ⟨rfl, rfl⟩

theorem operand_of_decode_bit {b : Bool} (h : decode w = .ok (.bit b)) : b = fieldB w := by
  rcases decode_ok_cases h with ⟨-, -, -, e⟩ | ⟨-, -, -, e⟩ | ⟨-, -, -, e⟩ <;> cases e
  rfl

theorem operand_of_decode_byte {data : Byte} (h : decode w = .ok (.byte data)) : data = fieldData w := by
  rcases decode_ok_cases h with ⟨-, -, -, e⟩ | ⟨-, -, -, e⟩ | ⟨-, -, -, e⟩ <;> cases e
  rfl

theorem fieldSeed_getLsbD (w : Word) {j : Nat} (hj : j < 7) : (fieldSeed w).getLsbD j = w.getLsbD j := by
  rw [fieldSeed, BitVec.getLsbD_extractLsb', decide_eq_true hj, Bool.true_and, Nat.zero_add]

theorem fieldData_getLsbD (w : Word) {j : Nat} (hj : j < 8) : (fieldData w).getLsbD j = w.getLsbD j := by
  rw [fieldData, BitVec.getLsbD_extractLsb', decide_eq_true hj, Bool.true_and, Nat.zero_add]

theorem fieldD_eq_descramble_iff (w : Word) : fieldD w = .descramble ↔ w.getLsbD 7 = true := by
  rw [fieldD_eq_ite]
  split_ifs with h
  · exact iff_of_true rfl h
  · exact iff_of_false nofun h

end Operands

/-- Settles O6: the operands are the fields of the word, and every command has a word, its encoding. -/
theorem operandsAreTheFieldsBitForBit : Obligations.OperandsAreTheFieldsBitForBit := by
  refine ⟨fun w d seed s h => ?_, fun w b => operand_of_decode_bit, fun w data h => ?_,
    fun d seed => ⟨_, decode_encode (.init d seed)⟩, fun b => ⟨_, decode_encode (.bit b)⟩,
    fun data => ⟨_, decode_encode (.byte data)⟩⟩
  · obtain ⟨rfl, rfl⟩ := operands_of_decode_init h
    exact ⟨_, Machine.exec_init _ _ s, fun j => fieldSeed_getLsbD w, fieldD_eq_descramble_iff w⟩
  · obtain rfl := operand_of_decode_byte h
    exact ⟨fun j => fieldData_getLsbD w, congrArg some (fieldData_getLsbD w (by omega))⟩

end Sys2Proof
end

