-- ==== Sys2Proof/Proofs/AssemblerLines.lean ====
section
/-! PROOF. The lines of the assembler (R71, R72): what each source command assembles to, and that the assembler reads back the lines the
disassembler prints. -/

namespace Sys2Proof.Machine

/-! ### Source commands -/

theorem assembleSource_init (d : Mode) (seed : Nat) : assembleSource (.init d seed) =
    if seed < 128 then some [encode (.init d (BitVec.ofNat 7 seed))] else none :=
  if_congr decide_eq_true_iff rfl rfl

theorem assembleSource_bit (b : Nat) :
    assembleSource (.bit b) = if b < 2 then some [encode (.bit (b == 1))] else none :=
  if_congr decide_eq_true_iff rfl rfl

theorem assembleSource_byte (imm : Nat) : assembleSource (.byte imm) =
    if imm < 256 then some [encode (.byte (BitVec.ofNat 8 imm))] else none :=
  if_congr decide_eq_true_iff rfl rfl

/-- A PROCESS line is in range exactly when all its operands are (R71, R72). -/
theorem wellFormed_process_iff (bytes : List Nat) :
    (SourceCommand.process bytes).wellFormed = true ↔ ∀ b ∈ bytes, b < 256 := by
  simp [SourceCommand.wellFormed]

theorem assembleSource_process (bytes : List Byte) : assembleSource (.process (bytes.map BitVec.toNat)) =
    some (bytes.map fun b => encode (.byte b)) := by
  have in_range : (SourceCommand.process (bytes.map BitVec.toNat)).wellFormed = true := by
    rw [wellFormed_process_iff, List.forall_mem_map]
    exact fun b _ => b.isLt
  rw [assembleSource, if_pos in_range, expandSource, List.map_map, List.map_map]
  simp [Function.comp_def]

theorem assembleSource_process_of_out_of_range {bytes : List Nat} (h : ∃ b ∈ bytes, 256 ≤ b) :
    assembleSource (.process bytes) = none := by
  obtain ⟨b, hmem, hb⟩ := h
  refine if_neg fun in_range => ?_
  exact absurd ((wellFormed_process_iff bytes).mp in_range b hmem) (Nat.not_lt.mpr hb)

/-- Settles O8: each source command is checked for its operands' ranges and expanded. -/
theorem sourceCommandsExpand : Obligations.SourceCommandsExpand :=
  ⟨assembleSource_init, assembleSource_bit, assembleSource_byte, fun _ => rfl, assembleSource_process,
    fun _ => assembleSource_process_of_out_of_range⟩

/-! ### Printed numbers -/

theorem hexNumber_two (n : Nat) : hexNumber 2 n = ['0', 'x', hexDigit (n / 16 % 16), hexDigit (n % 16)] := by
  simp [hexNumber, List.range_succ]

theorem hexNumber_four (n : Nat) : hexNumber 4 n =
    ['0', 'x', hexDigit (n / 4096 % 16), hexDigit (n / 256 % 16), hexDigit (n / 16 % 16), hexDigit (n % 16)] := by
  simp [hexNumber, List.range_succ]

/-- The assembler reads the two digits printed for a value below 256. -/
theorem readNumber_hexNumber_two {n : Nat} (h : n < 256) : readNumber (hexNumber 2 n) = some n := by
  rw [hexNumber_two, readNumber, readDigits_hexDigit (Nat.mod_lt _ (by decide)),
    readDigits_hexDigit (Nat.mod_lt _ (by decide)), readDigits]
  exact congrArg some (by omega)

/-- The four digits printed for a word read as the word. -/
theorem readNumber_hexNumber_four {n : Nat} (h : n < 65536) : readNumber (hexNumber 4 n) = some n := by
  rw [hexNumber_four, readNumber, readDigits_hexDigit (Nat.mod_lt _ (by decide)),
    readDigits_hexDigit (Nat.mod_lt _ (by decide)), readDigits_hexDigit (Nat.mod_lt _ (by decide)),
    readDigits_hexDigit (Nat.mod_lt _ (by decide)), readDigits]
  exact congrArg some (by omega)

/-- A printed digit is part of a name: it is no comma, no blank and no comment. -/
theorem tokenize_hexDigit {n : Nat} (h : n < 16) (cs acc : List Char) :
    tokenize (hexDigit n :: cs) acc = tokenize cs (hexDigit n :: acc) := by
  interval_cases n <;> rfl

/-- A printed number at the end of a line is one name. -/
theorem tokenize_hexNumber_two (n : Nat) : tokenize (hexNumber 2 n) [] = [.name (hexNumber 2 n)] := by
  have after_0x (cs : List Char) : tokenize ('0' :: 'x' :: cs) [] = tokenize cs ['x', '0'] := rfl
  rw [hexNumber_two, after_0x, tokenize_hexDigit (Nat.mod_lt _ (by decide)),
    tokenize_hexDigit (Nat.mod_lt _ (by decide))]
  rfl

/-! ### Printed lines -/

/-- The letter a mode is printed as (R71). -/
def modeLetter : Mode → Char
  | .scramble => 'S'
  | .descramble => 'D'

theorem readMode_modeLetter (d : Mode) : readMode [modeLetter d] = some d := by
  cases d <;> decide

theorem tokenize_printInstr_init (d : Mode) (seed : Reg) : tokenize (printInstr (.init d seed)) [] =
    .name ['I', 'N', 'I', 'T'] :: .name [modeLetter d] :: .comma :: tokenize (hexNumber 2 seed.toNat) [] := by
  cases d <;> rfl

theorem tokenize_printInstr_byte (data : Byte) : tokenize (printInstr (.byte data)) [] =
    .name ['B', 'Y', 'T', 'E'] :: tokenize (hexNumber 2 data.toNat) [] := rfl

/-- A line of some tokens is assembled as the source command they write (R71). -/
theorem assembleLine_of_parseTokens {line : List Char} {ts : List Token} {c : SourceCommand}
    (ht : tokenize line [] = ts) (hc : parseTokens ts = some c) : assembleLine line = assembleSource c := by
  cases ts with
  | nil => cases hc
  | cons t ts => rw [assembleLine, ht]; simp only [hc]

theorem assembleLine_printInstr_init (d : Mode) (seed : Reg) :
    assembleLine (printInstr (.init d seed)) = some [encode (.init d seed)] := by
  have number : readNumber (hexNumber 2 seed.toNat) = some seed.toNat := readNumber_hexNumber_two (by omega)
  have parsed : parseTokens [.name ['I', 'N', 'I', 'T'], .name [modeLetter d], .comma, .name (hexNumber 2 seed.toNat)] =
      some (.init d seed.toNat) := by
    rw [parseTokens, readMode_modeLetter, number]
  rw [assembleLine_of_parseTokens (tokenize_printInstr_init d seed) (tokenize_hexNumber_two _ ▸ parsed),
    assembleSource_init, if_pos seed.isLt, BitVec.ofNat_toNat, BitVec.setWidth_eq]

theorem assembleLine_printInstr_bit (b : Bool) : assembleLine (printInstr (.bit b)) = some [encode (.bit b)] := by
  cases b <;> decide

theorem assembleLine_printInstr_byte (data : Byte) :
    assembleLine (printInstr (.byte data)) = some [encode (.byte data)] := by
  have parsed : parseTokens [.name ['B', 'Y', 'T', 'E'], .name (hexNumber 2 data.toNat)] = some (.byte data.toNat) := by
    rw [parseTokens, readNumber_hexNumber_two data.isLt, Option.map_some]
  rw [assembleLine_of_parseTokens (tokenize_printInstr_byte data) (tokenize_hexNumber_two _ ▸ parsed),
    assembleSource_byte, if_pos data.isLt, BitVec.ofNat_toNat, BitVec.setWidth_eq]

/-- The line printed for a command assembles to the command's word alone (R71). -/
theorem assembleLine_printInstr (i : Instr) : assembleLine (printInstr i) = some [encode i] := by
  cases i with
  | init d seed => exact assembleLine_printInstr_init d seed
  | bit b => exact assembleLine_printInstr_bit b
  | byte data => exact assembleLine_printInstr_byte data

theorem disassemble_of_decode_ok {w : Word} {i : Instr} (h : decode w = .ok i) : disassemble w = printInstr i := by
  rw [disassemble, h]

theorem disassemble_of_decode_error {w : Word} {e : DecodeRefusal} (h : decode w = .error e) : disassemble w =
    ['.', 'w', 'o', 'r', 'd', ' '] ++ hexNumber 4 w.toNat ++ [' ', ';', ' ', 'r', 'e', 's', 'e', 'r', 'v', 'e', 'd'] := by
  rw [disassemble, h]

/-- Settles O7: a legal word is its command's word, which the printed line assembles to; a refused word's four digits read as the
word. -/
theorem assembleOfDisassemble : Obligations.AssembleOfDisassemble := by
  refine ⟨fun w i h => ?_, fun w e h => ?_⟩
  · rw [disassemble_of_decode_ok h, assembleLine_printInstr, encode_of_decode h]
  · have number : readNumber (hexNumber 4 w.toNat) = some w.toNat := readNumber_hexNumber_four w.isLt
    rw [disassemble_of_decode_error h]
    rw [hexNumber_four] at number ⊢
    exact ⟨_, _, _, _, rfl, number⟩

end Sys2Proof.Machine
end

