-- ==== Sys2Proof/Proofs/StepFrames.lean ====
section
/-! PROOF. What commands and steps leave as it was (R28, R84, R124, R157), and that a step is the meaning of the oldest call alone
(R50, R60). -/

namespace Sys2Proof.Machine

/-! ### The frame of a command -/

/-- A command that is done has appended its one response (R60, R69). -/
theorem exec_next_responses {i : Instr} {s t : State} (h : exec i s = .next t) :
    ∃ r, t.responses = s.responses ++ [r] := by
  rcases exec_next_cases h with ⟨d, seed, -, rfl⟩ | ⟨b, -, -, rfl⟩ | ⟨data, -, -, rfl⟩
  · exact ⟨.ack, rfl⟩
  · exact ⟨_, rfl⟩
  · exact ⟨_, rfl⟩

/-- A data command that is done has found the instance constructed, and keeps `MODE` and `VALID` (R124, R142). -/
theorem exec_data_next {i : Instr} {s t : State} (hi : ∀ d seed, i ≠ .init d seed) (h : exec i s = .next t) :
    t.mode = s.mode ∧ t.valid = s.valid ∧ s.valid = true := by
  rcases exec_next_cases h with ⟨d, seed, rfl, -⟩ | ⟨b, -, hv, rfl⟩ | ⟨data, -, hv, rfl⟩
  · exact absurd rfl (hi d seed)
  · exact ⟨rfl, rfl, hv⟩
  · exact ⟨rfl, rfl, hv⟩

/-- Settles O15: the frame, field by field. -/
theorem commandFrames : Obligations.CommandFrames := fun _ _ _ h =>
  ⟨exec_next_fault h, exec_next_hosts h, exec_next_pending h, exec_next_responses h, fun hi => exec_data_next hi h⟩

/-- Settles O18: the modes shift different bits into the same register. -/
theorem modesDifferOnlyInTheInsertedBit : Obligations.ModesDifferOnlyInTheInsertedBit := by
  intro b s hv
  refine ⟨_, _, exec_bit_of_valid (s := { s with mode := .scramble }) hv,
    exec_bit_of_valid (s := { s with mode := .descramble }) hv, rfl, ?_, ?_⟩
  · exact (extractLsb'_one_shiftIn s.reg _).trans (extractLsb'_one_shiftIn s.reg _).symm
  · have scrambled : (engineStep .scramble s.reg b).1.getLsbD 0 = (b ^^ feedback s.reg) :=
      shiftIn_getLsbD s.reg _ 0 (by omega)
    have descrambled : (engineStep .descramble s.reg b).1.getLsbD 0 = b := shiftIn_getLsbD s.reg _ 0 (by omega)
    calc ((engineStep .scramble s.reg b).1.getLsbD 0 ^^ (engineStep .descramble s.reg b).1.getLsbD 0)
      _ = ((feedback s.reg ^^ b) ^^ b) := by rw [scrambled, descrambled, Bool.xor_comm b]
      _ = feedback s.reg := by rw [Bool.xor_assoc, Bool.xor_self, Bool.xor_false]

/-- Settles O19: construction overwrites what it writes; the two bytes are two values of the adapter byte. -/
theorem initIsIdempotentByteIsNot : Obligations.InitIsIdempotentByteIsNot := by
  refine ⟨fun d seed s => ⟨_, exec_init d seed s, exec_init d seed _⟩, fun s hv hmode hreg => ?_⟩
  have first : adapterByte .msbFirst .scramble 0x7F 0x00 = (0x0E, 0x0E) := by decide
  have second : (adapterByte .msbFirst .scramble 0x0E 0x00).2 = 0xF2 ∧
      (adapterByte .msbFirst .scramble 0x0E 0x00).1 ≠ 0x0E := by decide
  refine ⟨_, _, exec_byte_of_valid hv, exec_byte_of_valid hv, ?_, ?_⟩
  · simp only [hmode, hreg, first, second, List.append_assoc, List.singleton_append]
  · simp only [hmode, hreg, first]
    exact second.2

/-! ### The step and the oldest call -/

/-- Settles O17: what is left for such a step is to idle or to take a PROCESS, and both write the pending calls alone. -/
theorem onlyCommandsTouchTheInstance : Obligations.OnlyCommandsTouchTheInstance := by
  intro s t h no_command no_constructor
  obtain ⟨-, ⟨-, rfl⟩ | ⟨w, i, rest, hp, -, -⟩ | ⟨d, rest, hp, -⟩ | ⟨n, bytesIn, rest, -, -, -, rfl⟩⟩ :=
    step_next_cases h
  · rfl
  · exact absurd hp (no_command w rest)
  · exact absurd hp (no_constructor d rest)
  · rfl

theorem step_command_ok {s : State} {w : Word} {rest : List HostCall} {i : Instr} (hr : s.Ready)
    (hp : s.pending = .command w :: rest) (hd : decode w = .ok i) : step s = exec i { s with pending := rest } := by
  rw [step_call hr hp, runCall, runCommand_ok hd]

theorem decode_tableWord_of_decodeTableWord {nbits w : Nat} {i : Instr} (h : decodeTableWord nbits w = some i) :
    decode (tableWord nbits w) = .ok i := by
  rw [decodeTableWord] at h
  split_ifs at h
  cases hd : decode (tableWord nbits w) with
  | ok j => rw [hd] at h; exact congrArg Except.ok (Option.some.inj h)
  | error e => rw [hd] at h; cases h

/-- Settles O20: the step takes the oldest word, which `withFetchWord` puts in front. -/
theorem stepRunsTheDecodedCommand : Obligations.StepRunsTheDecodedCommand :=
  ⟨fun _ _ _ _ hr hp hd _ => step_command_ok hr hp hd,
    fun s nbits w _ hr h => step_command_ok (s := s.withFetchWord nbits w) (rest := s.pending) hr rfl
      (decode_tableWord_of_decodeTableWord h)⟩

/-! ### Calls behind the oldest -/

/-- A command does not look at the pending calls. -/
theorem exec_next_issue {i : Instr} {s t : State} (c : HostCall) (h : exec i s = .next t) :
    exec i (s.issue c) = .next (t.issue c) := by
  rcases exec_next_cases h with ⟨d, seed, rfl, rfl⟩ | ⟨b, rfl, hv, rfl⟩ | ⟨data, rfl, hv, rfl⟩
  · rfl
  · exact exec_bit_of_valid hv
  · exact exec_byte_of_valid hv

theorem acceptProcess_of_fault {n : Nat} {bytesIn : List Byte} {s : State} {f : Fault}
    (h : processCheck n bytesIn s = some f) : acceptProcess n bytesIn s = .fault f := by
  rw [acceptProcess, h]

theorem acceptProcess_of_pass {n : Nat} {bytesIn : List Byte} {s : State} (hl : bytesIn.length = n)
    (hv : n = 0 ∨ s.valid = true) :
    acceptProcess n bytesIn s = .next { s with pending := expandProcess bytesIn ++ s.pending } := by
  have passed : processCheck n bytesIn s = none := by
    rw [processCheck, if_neg (not_not_intro hl), if_neg]
    rintro ⟨hpos, hnot⟩
    rcases hv with rfl | hv
    · exact absurd hpos (Nat.lt_irrefl 0)
    · exact absurd (hv.symm.trans hnot) (by decide)
  rw [acceptProcess, passed]

/-- Taking a PROCESS that passes its checks puts its BYTE commands in its place (R106). -/
theorem step_process_of_pass {s : State} {n : Nat} {bytesIn : List Byte} {rest : List HostCall} (hr : s.Ready)
    (hp : s.pending = .process n bytesIn :: rest) (hl : bytesIn.length = n) (hv : n = 0 ∨ s.valid = true) :
    step s = .next { s with pending := expandProcess bytesIn ++ rest } := by
  rw [step_call hr hp]
  exact acceptProcess_of_pass hl hv

/-- Settles O29: the oldest call is the same one, and neither a command nor taking a PROCESS looks behind it. -/
theorem laterCallsWaitTheirTurn : Obligations.LaterCallsWaitTheirTurn := by
  intro s t c hne h
  obtain ⟨hready, hcases⟩ := step_next_cases h
  have hr : (s.issue c).Ready := hready
  have behind {call : HostCall} {rest : List HostCall} (hp : s.pending = call :: rest) :
      (s.issue c).pending = call :: (rest ++ [c]) := congrArg (· ++ [c]) hp
  rcases hcases with ⟨hp, -⟩ | ⟨w, i, rest, hp, hd, he⟩ | ⟨d, rest, hp, he⟩ | ⟨n, bytesIn, rest, hp, hl, hv, rfl⟩
  · exact absurd hp hne
  · exact (step_command_ok hr (behind hp) hd).trans (exec_next_issue c he)
  · exact (step_call hr (behind hp)).trans (exec_next_issue c he)
  · rw [step_process_of_pass hr (behind hp) hl hv, ← List.append_assoc]
    rfl

/-! ### Idling -/

theorem run_idle {s : State} (hr : s.Ready) (hp : s.pending = []) (n : Nat) : run n s = .next s := by
  induction n with
  | zero => rfl
  | succ n ih => rw [run_succ (step_idle hr hp), ih]

/-- Settles O30: with nothing to take, a step is refused for its hosts, answers the recorded fault, or idles. -/
theorem idleKeepsTheState : Obligations.IdleKeepsTheState := by
  refine ⟨fun s hp => ?_, fun s n hr hp => run_idle hr hp n⟩
  rcases Nat.lt_or_ge s.hosts 2 with hh | hh
  · rcases Option.eq_none_or_eq_some s.fault with hf | ⟨r, hf⟩
    · rw [step_idle ⟨hh, hf⟩ hp, outcomeState]
    · rw [step_faulted hh hf]
      rfl
  · rw [step_concurrent hh, outcomeState]

end Sys2Proof.Machine
end

