-- ==== Sys2Proof/Proofs/PowerOn.lean ====
section
/-! PROOF. From power-on (R170): the invariant that every step keeps (R27, R28, R69, R142, R145), and what of the power-on state can be
observed (R21, R23). -/

namespace Sys2Proof.Machine

/-! ### The invariant -/

/-- After a command that is done the instance is constructed (R27, R142). -/
theorem exec_next_valid {i : Instr} {s t : State} (h : exec i s = .next t) : t.valid = true := by
  rcases exec_next_cases h with ⟨d, seed, -, rfl⟩ | ⟨b, -, hv, rfl⟩ | ⟨data, -, hv, rfl⟩
  · rfl
  · exact hv
  · exact hv

/-- A command keeps the invariant: its response stands behind INIT's acknowledgement, or is that (R69, R142). -/
theorem exec_next_inv {i : Instr} {s t : State} (hs : s.Inv) (h : exec i s = .next t) : t.Inv := by
  obtain ⟨hfault, hhosts, silent, acknowledged⟩ := hs
  have behind (hv : s.valid = true) (r : Response) : (s.responses ++ [r]).head? = some .ack := by
    rw [List.head?_append, acknowledged hv, Option.some_or]
  have first_answer : t.responses.head? = some .ack := by
    rcases exec_next_cases h with ⟨d, seed, -, rfl⟩ | ⟨b, -, hv, rfl⟩ | ⟨data, -, hv, rfl⟩
    · cases hv : s.valid with
      | false => rw [State.respond_responses, State.construct_responses, silent hv]; rfl
      | true => exact behind hv .ack
    · exact behind hv _
    · exact behind hv _
  exact ⟨(exec_next_fault h).trans hfault, (exec_next_hosts h).trans_le hhosts,
    fun hv => absurd ((exec_next_valid h).symm.trans hv) (by decide), fun _ => first_answer⟩

/-- Settles O34: nothing has been answered at power-on. -/
theorem powerOnHoldsTheInvariant : Obligations.PowerOnHoldsTheInvariant :=
  ⟨rfl, Nat.le_refl 1, fun _ => rfl, nofun⟩

/-- Settles O35: a step runs a command, which keeps the invariant, or writes the pending calls, of which it does not speak. -/
theorem stepKeepsTheInvariant : Obligations.StepKeepsTheInvariant := by
  intro s t hs h
  obtain ⟨-, ⟨-, rfl⟩ | ⟨w, i, rest, -, -, he⟩ | ⟨d, rest, -, he⟩ | ⟨n, bytesIn, rest, -, -, -, rfl⟩⟩ :=
    step_next_cases h
  · exact hs
  · exact exec_next_inv (s := { s with pending := rest }) hs he
  · exact exec_next_inv (s := { s with pending := rest }) hs he
  · exact hs

/-- Settles O36: a command that is no INIT is data, which faults before construction. -/
theorem powerOnState : Obligations.PowerOnState :=
  ⟨rfl, rfl, fun i hi => ⟨_, step_data_of_not_valid ⟨Nat.lt_succ_self 1, rfl⟩ rfl rfl (decode_encode i) hi⟩⟩

/-! ### REG and MODE before construction -/

/-- The instance with other values in `REG` and `MODE`. -/
def State.withRegisters (r : Reg) (m : Mode) (s : State) : State := { s with reg := r, mode := m }

/-- Outcomes of an instance before construction, and of the same instance with other values in `REG` and `MODE`, that its host cannot
tell apart: they are one outcome, go on before construction, or stop for one reason. -/
inductive SeenAlike (r : Reg) (m : Mode) : StepOutcome → StepOutcome → Prop where
  | same (o : StepOutcome) : SeenAlike r m o o
  | unconstructed {t : State} (hv : t.valid = false) : SeenAlike r m (.next t) (.next (t.withRegisters r m))
  | fault {f f' : Fault} (h : f'.reason = f.reason) : SeenAlike r m (.fault f) (.fault f')
  | refused {q q' : Refusal} (h : refusalReason q' = refusalReason q) : SeenAlike r m (.refused q) (.refused q')

section Unconstructed
variable (r : Reg) (m : Mode)

/-- A command constructs over `REG` and `MODE`, or is data and faults (R123, R142). -/
theorem exec_withRegisters (i : Instr) {s : State} (hv : s.valid = false) :
    SeenAlike r m (exec i s) (exec i (s.withRegisters r m)) := by
  by_cases hi : ∃ d seed, i = .init d seed
  · obtain ⟨d, seed, rfl⟩ := hi
    exact .same (exec (.init d seed) s)
  · push Not at hi
    rw [exec_data_of_not_valid hi hv, exec_data_of_not_valid (s := s.withRegisters r m) hi hv]
    exact .fault rfl

/-- The checks of a PROCESS look at its length and at `VALID` (R106). -/
theorem acceptProcess_withRegisters (n : Nat) (bytesIn : List Byte) {s : State} (hv : s.valid = false) :
    SeenAlike r m (acceptProcess n bytesIn s) (acceptProcess n bytesIn (s.withRegisters r m)) := by
  rcases processCheck_cases n bytesIn s with ⟨hl, -⟩ | ⟨hl, hn, -⟩ | ⟨hl, hpass, -⟩
  · rw [acceptProcess_of_fault (processCheck_of_wrong_claim hl),
      acceptProcess_of_fault (processCheck_of_wrong_claim hl)]
    exact .fault rfl
  · rw [acceptProcess_of_fault (processCheck_of_not_valid hl hn hv),
      acceptProcess_of_fault (processCheck_of_not_valid (s := s.withRegisters r m) hl hn hv)]
    exact .fault rfl
  · rw [acceptProcess_of_pass hl hpass, acceptProcess_of_pass (s := s.withRegisters r m) hl hpass]
    exact .unconstructed (t := { s with pending := expandProcess bytesIn ++ s.pending }) hv

theorem runCall_withRegisters (c : HostCall) {s : State} (hv : s.valid = false) :
    SeenAlike r m (runCall c s) (runCall c (s.withRegisters r m)) := by
  cases c with
  | command w =>
    rw [runCall, runCall]
    cases hd : decode w with
    | error e =>
      rw [runCommand_error hd, runCommand_error hd]
      exact .same _
    | ok i =>
      rw [runCommand_ok hd, runCommand_ok hd]
      exact exec_withRegisters r m i hv
  | newScrambler d => exact exec_withRegisters r m (newInstr d) hv
  | process n bytesIn => exact acceptProcess_withRegisters r m n bytesIn hv

theorem step_withRegisters {s : State} (hv : s.valid = false) :
    SeenAlike r m (step s) (step (s.withRegisters r m)) := by
  rcases Nat.lt_or_ge s.hosts 2 with hh | hh
  · rcases Option.eq_none_or_eq_some s.fault with hf | ⟨reason, hf⟩
    · have hr : s.Ready := ⟨hh, hf⟩
      have hr' : (s.withRegisters r m).Ready := hr
      cases hp : s.pending with
      | nil =>
        rw [step_idle hr hp, step_idle hr' hp]
        exact .unconstructed hv
      | cons c rest =>
        rw [step_call hr hp, step_call hr' hp]
        exact runCall_withRegisters r m c (s := { s with pending := rest }) hv
    · rw [step_faulted hh hf, step_faulted (s := s.withRegisters r m) hh hf]
      exact .fault rfl
  · rw [step_concurrent hh, step_concurrent (s := s.withRegisters r m) hh]
    exact .refused rfl

theorem observeRun_withRegisters (n : Nat) {s : State} (hv : s.valid = false) :
    observeRun n (s.withRegisters r m) = observeRun n s := by
  induction n generalizing s with
  | zero => rfl
  | succ n ih =>
    have alike := step_withRegisters r m hv
    have same_responses : (s.withRegisters r m).responses = s.responses := rfl
    rw [observeRun, observeRun, same_responses]
    generalize step s = o, step (s.withRegisters r m) = o' at alike
    cases alike with
    | same => rfl
    | unconstructed htv => exact ih htv
    | fault h => simp only [h]
    | refused h => simp only [h]

end Unconstructed

/-- Settles O37: before construction no step's course depends on `REG` or `MODE`, and construction writes over both. -/
theorem powerOnRegistersAreNeverObserved : Obligations.PowerOnRegistersAreNeverObserved :=
  fun _ r m n => observeRun_withRegisters r m n

end Sys2Proof.Machine
end

