-- ==== Sys2Proof/Proofs/DataStream.lean ====
section
/-! PROOF. Data on a constructed instance, command after command: BIT and BYTE in any mixture are one run of the engine over their
bits (R44, R45, R179), and the steps of a PROCESS are its transaction (R106, R108). -/

namespace Sys2Proof.Machine

/-! ### BIT and BYTE mixed -/

/-- A data command of a constructed instance passes its bits through the engine, which its one response carries the outputs of (R44,
R69). -/
theorem exec_data_of_valid {i : Instr} {s : State} (hi : ∀ d seed, i ≠ .init d seed) (hv : s.valid = true) :
    ∃ r, exec i s = .next { s with reg := (engineRun s.mode s.reg (inputBits i)).1, responses := s.responses ++ [r] } ∧
      outputBits i r = (engineRun s.mode s.reg (inputBits i)).2 := by
  cases i with
  | init d seed => exact absurd rfl (hi d seed)
  | bit b => exact ⟨_, exec_bit_of_valid hv, congrArg (fun y => [y]) (zext8_getLsbD_zero _)⟩
  | byte data =>
    refine ⟨.data (adapterByte .msbFirst s.mode s.reg data).2, ?_, bitsMsbFirst_adapterByte s.mode s.reg data⟩
    rw [exec_byte_of_valid hv, adapterByte_msbFirst_fst]
    rfl

/-- Data commands pending, and nothing else, run to the engine over their concatenated bits (R44, R45). -/
theorem run_data (is : List Instr) {s : State} (hr : s.Ready) (hv : s.valid = true)
    (hi : ∀ i ∈ is, ∀ d seed, i ≠ .init d seed) (hp : s.pending = is.map fun i => .command (encode i)) :
    ∃ rs : List Response, rs.length = is.length ∧
      run is.length s = .next { s with reg := (engineRun s.mode s.reg (is.flatMap inputBits)).1, pending := [],
                                       responses := s.responses ++ rs } ∧
      (List.zipWith outputBits is rs).flatten = (engineRun s.mode s.reg (is.flatMap inputBits)).2 := by
  induction is generalizing s with
  | nil =>
    have hp : s.pending = [] := hp
    refine ⟨[], rfl, ?_, rfl⟩
    rw [List.length_nil, run_zero, List.flatMap_nil, engineRun_nil, List.append_nil, ← hp]
  | cons i is ih =>
    obtain ⟨hhead, htail⟩ := List.forall_mem_cons.mp hi
    obtain ⟨r, hexec, hout⟩ :=
      exec_data_of_valid (s := { s with pending := is.map fun i => .command (encode i) }) hhead hv
    have hstep := (step_command_ok hr hp (decode_encode i)).trans hexec
    obtain ⟨rs, hlen, hrun, houts⟩ := ih (s := { s with
      reg := (engineRun s.mode s.reg (inputBits i)).1, pending := is.map fun i => .command (encode i),
      responses := s.responses ++ [r] }) hr hv htail rfl
    refine ⟨r :: rs, congrArg (· + 1) hlen, ?_, ?_⟩
    · rw [List.length_cons, run_succ hstep, hrun, List.flatMap_cons, engineRun_append, List.append_assoc,
        List.singleton_append]
    · rw [List.zipWith_cons_cons, List.flatten_cons, List.flatMap_cons, engineRun_append, hout, houts]

/-- Settles O49: one command after another, the engine going on from the register the one before left. -/
theorem mixedWidthStream : Obligations.MixedWidthStream :=
  fun is _ hr hv hi hp => run_data is hr hv hi hp

/-! ### PROCESS, step by step -/

/-- The instance after the bytes `bs`, answered one by one, with the calls `rest` left (R100). -/
def State.afterBytes (bs : List Byte) (rest : List HostCall) (s : State) : State :=
  { s with reg := (adapterRun .msbFirst s.mode s.reg bs).1, pending := rest,
           responses := s.responses ++ (adapterRun .msbFirst s.mode s.reg bs).2.map .data }

theorem State.afterBytes_nil (rest : List HostCall) (s : State) : s.afterBytes [] rest = { s with pending := rest } := by
  rw [State.afterBytes, adapterRun_nil, List.map_nil, List.append_nil]

/-- Bytes after bytes are the bytes of the concatenation (R108). -/
theorem State.afterBytes_afterBytes (xs ys : List Byte) (calls rest : List HostCall) (s : State) :
    (s.afterBytes xs calls).afterBytes ys rest = s.afterBytes (xs ++ ys) rest := by
  simp only [State.afterBytes, adapterRun_append, List.map_append, List.append_assoc]

/-- A step that takes a BYTE's word, on a constructed instance (R103). -/
theorem step_byte {b : Byte} {s : State} {rest : List HostCall} (hr : s.Ready) (hv : s.valid = true)
    (hp : s.pending = .command (encode (.byte b)) :: rest) : step s = .next (s.afterBytes [b] rest) :=
  (step_command_ok hr hp (decode_encode (.byte b))).trans (exec_byte_of_valid hv)

/-- The BYTE commands of a PROCESS, pending on a constructed instance ahead of later calls, run to the adapter over its bytes (R106,
R108). -/
theorem run_expandProcess (bs : List Byte) {s : State} {rest : List HostCall} (hr : s.Ready) (hv : s.valid = true ∨ bs = [])
    (hp : s.pending = expandProcess bs ++ rest) : run bs.length s = .next (s.afterBytes bs rest) := by
  induction bs generalizing s with
  | nil =>
    have hp : s.pending = rest := hp
    rw [List.length_nil, run_zero, State.afterBytes_nil, ← hp]
  | cons b bs ih =>
    have hv : s.valid = true := hv.resolve_right (List.cons_ne_nil b bs)
    have first := step_byte (rest := expandProcess bs ++ rest) hr hv hp
    have others := ih (s := s.afterBytes [b] (expandProcess bs ++ rest)) hr (.inl hv) rfl
    rw [List.length_cons, run_succ first, others, State.afterBytes_afterBytes, List.singleton_append]

/-- A PROCESS that passes its checks takes one step for them and one for each byte, and is the adapter over its bytes (R106, R108). -/
theorem run_process {s : State} {bs : List Byte} {rest : List HostCall} (hr : s.Ready) (hv : s.valid = true ∨ bs = [])
    (hp : s.pending = .process bs.length bs :: rest) : run (bs.length + 1) s = .next (s.afterBytes bs rest) := by
  have passes : bs.length = 0 ∨ s.valid = true := hv.symm.imp_left (congrArg List.length)
  rw [run_succ (step_process_of_pass hr hp rfl passes)]
  exact run_expandProcess (s := { s with pending := expandProcess bs ++ rest }) bs hr hv rfl

/-- A transaction that faults has failed its checks (R106). -/
theorem processCheck_of_processTransaction_error {n : Nat} {bs : List Byte} {s : State} {f : Fault}
    (h : processTransaction n bs s = .error f) : processCheck n bs s = some f := by
  rw [processTransaction] at h
  cases hc : processCheck n bs s with
  | none => rw [hc] at h; cases h
  | some f' => rw [hc] at h; exact congrArg some (Except.error.inj h)

/-- Settles O51: the transaction and the steps make the same checks, and past them both are the adapter over the bytes. -/
theorem processIsTheTransaction : Obligations.ProcessIsTheTransaction := by
  intro s n bs rest hr hp
  split
  next f h => exact step_process_fault hr hp (processCheck_of_processTransaction_error h)
  next t out h =>
    obtain ⟨rfl, hv⟩ := matching_claim_of_processTransaction h
    rw [processTransaction_of_matching_claim hv] at h
    cases h
    exact ⟨adapterRun_length .., rfl, run_process hr hv hp⟩

/-- Settles O54: the second call goes on from the register the first left, as the one call does. -/
theorem chunkedRunsEndAlike : Obligations.ChunkedRunsEndAlike := by
  intro s xs ys hr hv
  refine ⟨s.afterBytes (xs ++ ys) [], rfl, ?_, ?_, ?_⟩
  · simp [State.afterBytes, Nat.add_assoc]
  · have first := run_process (s := { s with pending := [.process xs.length xs, .process ys.length ys] }) hr (.inl hv) rfl
    have second := run_process (s := s.afterBytes xs [.process ys.length ys]) hr (.inl hv) rfl
    rw [State.afterBytes_afterBytes] at second
    have steps : xs.length + ys.length + 2 = (xs.length + 1) + (ys.length + 1) := by omega
    rw [steps]
    exact (run_add _ _ first).trans second
  · exact run_process (s := { s with pending := [.process (xs ++ ys).length (xs ++ ys)] }) hr (.inl hv) rfl

end Sys2Proof.Machine
end

