-- ==== Sys2Proof/Proofs/RunEnds.lean ====
section
/-! PROOF. Runs to their end (R141, R181): each step does one unit of the work pending, a run is safe exactly when its host keeps its
duties (R172, R175), and a safe run gives the responses its calls ask for (R69, R100). -/

namespace Sys2Proof.Machine

/-! ### The work left -/

theorem HostCall.cost_pos (c : HostCall) : 0 < c.cost := by
  cases c with
  | command w => exact Nat.zero_lt_one
  | newScrambler d => exact Nat.zero_lt_one
  | process n bytesIn => exact Nat.add_pos_left Nat.zero_lt_one _

theorem State.workLeft_of_pending {s : State} {c : HostCall} {rest : List HostCall} (hp : s.pending = c :: rest) :
    s.workLeft = c.cost + (rest.map HostCall.cost).sum := by
  rw [State.workLeft, hp, List.map_cons, List.sum_cons]

theorem State.workLeft_eq_zero_iff (s : State) : s.workLeft = 0 ↔ s.pending = [] := by
  cases hp : s.pending with
  | nil => simp [State.workLeft, hp]
  | cons c rest =>
    have := c.cost_pos
    simp [State.workLeft_of_pending hp, this.ne']

theorem State.pending_ne_nil_of_workLeft {s : State} {n : Nat} (h : s.workLeft = n + 1) : s.pending ≠ [] :=
  mt (State.workLeft_eq_zero_iff s).mpr (ne_of_eq_of_ne h (Nat.succ_ne_zero n))

/-- The BYTE commands of a PROCESS are one unit of work each. -/
theorem sum_cost_expandProcess (bytesIn : List Byte) : ((expandProcess bytesIn).map HostCall.cost).sum = bytesIn.length := by
  rw [expandProcess, List.map_map]
  simp [Function.comp_def, HostCall.cost]

/-- The BYTE commands of a PROCESS are answered once each. -/
theorem sum_answers_expandProcess (bytesIn : List Byte) :
    ((expandProcess bytesIn).map HostCall.answers).sum = bytesIn.length := by
  rw [expandProcess, List.map_map]
  simp [Function.comp_def, HostCall.answers]

/-- A command taken is one unit of work done, and so is taking a PROCESS, whose bytes are still to be done. -/
theorem step_next_workLeft {s t : State} (h : step s = .next t) (hne : s.pending ≠ []) :
    t.workLeft + 1 = s.workLeft := by
  obtain ⟨-, ⟨hp, -⟩ | ⟨w, i, rest, hp, -, he⟩ | ⟨d, rest, hp, he⟩ | ⟨n, bytesIn, rest, hp, -, -, rfl⟩⟩ :=
    step_next_cases h
  · exact absurd hp hne
  · rw [State.workLeft_of_pending hp, State.workLeft, exec_next_pending he, HostCall.cost, Nat.add_comm]
  · rw [State.workLeft_of_pending hp, State.workLeft, exec_next_pending he, HostCall.cost, Nat.add_comm]
  · rw [State.workLeft_of_pending hp, State.workLeft, List.map_append, List.sum_append, sum_cost_expandProcess,
      HostCall.cost]
    omega

theorem observeRun_succ_of_next {s t : State} (h : step s = .next t) (n : Nat) :
    observeRun (n + 1) s = observeRun n t := by
  rw [observeRun, h]

theorem observeRun_succ_of_fault {s : State} {f : Fault} (h : step s = .fault f) (n : Nat) :
    observeRun (n + 1) s = ⟨s.responses, .fault f.reason⟩ := by
  rw [observeRun, h]

/-- At rest with nothing pending is no unfinished run. -/
theorem restEnd_ne_unfinished {s : State} (hp : s.pending = []) : restEnd s ≠ .unfinished := by
  rw [restEnd, if_pos hp]
  split_ifs
  · nofun
  · cases s.fault <;> nofun

theorem observeRun_ending_ne_unfinished {n : Nat} {s : State} (hw : s.workLeft = n) :
    (observeRun n s).ending ≠ .unfinished := by
  induction n generalizing s with
  | zero => exact restEnd_ne_unfinished ((State.workLeft_eq_zero_iff s).mp hw)
  | succ n ih =>
    have hne := State.pending_ne_nil_of_workLeft hw
    cases hs : step s with
    | next t =>
      rw [observeRun_succ_of_next hs]
      exact ih (Nat.succ.inj ((step_next_workLeft hs hne).trans hw))
    | fault f => rw [observeRun_succ_of_fault hs]; nofun
    | refused r => rw [observeRun_succ_of_refused hs]; nofun

/-- Settles O31: each step does one unit of work, so a run of that many steps comes to rest with nothing pending, or stops before. -/
theorem everyRunComesToItsEnd : Obligations.EveryRunComesToItsEnd :=
  ⟨fun _ _ => step_next_workLeft, fun _ => observeRun_ending_ne_unfinished rfl⟩

/-! ### Safe runs -/

/-- A run with calls pending is safe when its first step answers a state from which it is safe. -/
theorem safeRun_iff_step {s : State} (hne : s.pending ≠ []) : SafeRun s ↔ ∃ t, step s = .next t ∧ SafeRun t := by
  obtain ⟨n, hn⟩ := Nat.exists_eq_succ_of_ne_zero (mt (State.workLeft_eq_zero_iff s).mp hne)
  rw [SafeRun, hn]
  cases hs : step s with
  | next t =>
    have hw : t.workLeft = n := Nat.succ.inj ((step_next_workLeft hs hne).trans hn)
    rw [observeRun_succ_of_next hs, ← hw]
    simp [SafeRun]
  | fault f => rw [observeRun_succ_of_fault hs]; simp
  | refused r => rw [observeRun_succ_of_refused hs]; simp

theorem safeRun_of_nothing_pending {s : State} (hr : s.Ready) (hp : s.pending = []) : SafeRun s := by
  rw [SafeRun, (State.workLeft_eq_zero_iff s).mpr hp, observeRun, restEnd, if_neg (Nat.not_le.mpr hr.1), hr.2]
  exact if_pos hp

/-! ### The host's duties -/

theorem legalCalls_init {w : Word} {d : Mode} {seed : Reg} (hd : decode w = .ok (.init d seed)) (valid : Bool)
    (calls : List HostCall) : legalCalls valid (.command w :: calls) = legalCalls true calls := by
  rw [legalCalls, hd]

/-- Data is legal after construction alone (R172). -/
theorem legalCalls_data {w : Word} {i : Instr} (hd : decode w = .ok i) (hi : ∀ d seed, i ≠ .init d seed) (valid : Bool)
    (calls : List HostCall) : legalCalls valid (.command w :: calls) = (valid && legalCalls valid calls) := by
  rw [legalCalls, hd]
  cases i with
  | init d seed => exact absurd rfl (hi d seed)
  | bit b => rfl
  | byte data => rfl

theorem legalCalls_reserved {w : Word} {e : DecodeRefusal} (hd : decode w = .error e) (valid : Bool)
    (calls : List HostCall) : legalCalls valid (.command w :: calls) = false := by
  rw [legalCalls, hd]

/-- The BYTE commands of a PROCESS are legal after construction, or if there are none. -/
theorem legalCalls_expandProcess (valid : Bool) (bytesIn : List Byte) (calls : List HostCall) :
    legalCalls valid (expandProcess bytesIn ++ calls) =
      ((decide (bytesIn.length = 0) || valid) && legalCalls valid calls) := by
  induction bytesIn with
  | nil => rfl
  | cons b bs ih =>
    have head : legalCalls valid (expandProcess (b :: bs) ++ calls) =
        (valid && legalCalls valid (expandProcess bs ++ calls)) :=
      legalCalls_data (decode_encode (.byte b)) (fun _ _ => nofun) valid _
    rw [head, ih]
    cases valid <;> simp

/-- The oldest word is legal when it is a command that is done, after which the other calls are legal. -/
theorem legalCalls_command_iff_step {s : State} {w : Word} {rest : List HostCall} (hr : s.Ready)
    (hp : s.pending = .command w :: rest) :
    legalCalls s.valid s.pending = true ↔ ∃ t, step s = .next t ∧ legalCalls t.valid t.pending = true := by
  rw [hp]
  cases hd : decode w with
  | error e =>
    rw [legalCalls_reserved hd, step_of_decode_error hr hp hd]
    simp
  | ok i =>
    rw [step_command_ok hr hp hd]
    by_cases hi : ∃ d seed, i = .init d seed
    · obtain ⟨d, seed, rfl⟩ := hi
      rw [legalCalls_init hd, exec_init]
      simp
    · push Not at hi
      rw [legalCalls_data hd hi]
      rcases Bool.eq_false_or_eq_true s.valid with hv | hv
      · obtain ⟨r, hexec, -⟩ := exec_data_of_valid (s := { s with pending := rest }) hi hv
        rw [hexec]
        simp [hv]
      · rw [exec_data_of_not_valid (s := { s with pending := rest }) hi hv]
        simp [hv]

theorem legalCalls_process_iff_step {s : State} {n : Nat} {bytesIn : List Byte} {rest : List HostCall} (hr : s.Ready)
    (hp : s.pending = .process n bytesIn :: rest) :
    legalCalls s.valid s.pending = true ↔ ∃ t, step s = .next t ∧ legalCalls t.valid t.pending = true := by
  rw [hp, legalCalls]
  rcases processCheck_cases n bytesIn s with ⟨hl, -⟩ | ⟨hl, hn, hv, -⟩ | ⟨hl, hpass, -⟩
  · rw [step_process_of_wrong_claim hr hp hl]
    simp [hl]
  · rw [step_process_of_not_valid hr hp hl hn hv]
    simp [hv, hn.ne']
  · rw [step_process_of_pass hr hp hl hpass]
    simp [legalCalls_expandProcess, hl]

/-- With calls pending, the host keeps its duties exactly when the oldest call is done and it keeps them from there on. -/
theorem legalCalls_iff_step {s : State} (hr : s.Ready) (hne : s.pending ≠ []) :
    legalCalls s.valid s.pending = true ↔ ∃ t, step s = .next t ∧ legalCalls t.valid t.pending = true := by
  obtain ⟨c, rest, hp⟩ := List.exists_cons_of_ne_nil hne
  cases c with
  | command w => exact legalCalls_command_iff_step hr hp
  | newScrambler d =>
    have hstep : step s = exec (newInstr d) { s with pending := rest } := step_call hr hp
    rw [hp, legalCalls, hstep, newInstr, exec_init]
    simp
  | process n bytesIn => exact legalCalls_process_iff_step hr hp

theorem step_next_ready {s t : State} (hr : s.Ready) (h : step s = .next t) : t.Ready :=
  ⟨(step_next_hosts h).trans_lt hr.1, (step_next_fault h).trans hr.2⟩

theorem safeRun_iff_legalCalls {n : Nat} {s : State} (hw : s.workLeft = n) (hr : s.Ready) :
    SafeRun s ↔ legalCalls s.valid s.pending = true := by
  induction n generalizing s with
  | zero =>
    have hp := (State.workLeft_eq_zero_iff s).mp hw
    exact iff_of_true (safeRun_of_nothing_pending hr hp) (by rw [hp, legalCalls])
  | succ n ih =>
    have hne := State.pending_ne_nil_of_workLeft hw
    rw [safeRun_iff_step hne, legalCalls_iff_step hr hne]
    refine exists_congr fun t => and_congr_right fun hs => ?_
    exact ih (Nat.succ.inj ((step_next_workLeft hs hne).trans hw)) (step_next_ready hr hs)

/-- Settles O32: step by step, a run goes on safely exactly while the host keeps its duties. -/
theorem safeRunsAreTheLegalOnes : Obligations.SafeRunsAreTheLegalOnes :=
  fun _ hr => safeRun_iff_legalCalls rfl hr

/-! ### The answers of a safe run -/

/-- What a step answers is no longer to be answered by the calls pending (R69, R100). -/
theorem step_next_answers {s t : State} (h : step s = .next t) :
    ∃ rs, t.responses = s.responses ++ rs ∧
      rs.length + (t.pending.map HostCall.answers).sum = (s.pending.map HostCall.answers).sum := by
  obtain ⟨-, ⟨-, rfl⟩ | ⟨w, i, rest, hp, -, he⟩ | ⟨d, rest, hp, he⟩ | ⟨n, bytesIn, rest, hp, -, -, rfl⟩⟩ :=
    step_next_cases h
  · exact ⟨[], (List.append_nil _).symm, Nat.zero_add _⟩
  · obtain ⟨r, hresp⟩ := exec_next_responses he
    exact ⟨[r], hresp, by rw [hp, exec_next_pending he]; rfl⟩
  · obtain ⟨r, hresp⟩ := exec_next_responses he
    exact ⟨[r], hresp, by rw [hp, exec_next_pending he]; rfl⟩
  · refine ⟨[], (List.append_nil _).symm, ?_⟩
    rw [hp, List.map_append, List.sum_append, sum_answers_expandProcess, List.length_nil, Nat.zero_add]
    rfl

theorem observeRun_responses_of_safeRun {n : Nat} {s : State} (hw : s.workLeft = n) (hsafe : SafeRun s) :
    ∃ rs, (observeRun n s).responses = s.responses ++ rs ∧ rs.length = (s.pending.map HostCall.answers).sum := by
  induction n generalizing s with
  | zero =>
    refine ⟨[], (List.append_nil _).symm, ?_⟩
    rw [(State.workLeft_eq_zero_iff s).mp hw]
    rfl
  | succ n ih =>
    have hne := State.pending_ne_nil_of_workLeft hw
    obtain ⟨t, hs, hsafe_t⟩ := (safeRun_iff_step hne).mp hsafe
    obtain ⟨now, hnow, hnow_length⟩ := step_next_answers hs
    obtain ⟨later, hlater, hlater_length⟩ := ih (Nat.succ.inj ((step_next_workLeft hs hne).trans hw)) hsafe_t
    refine ⟨now ++ later, ?_, ?_⟩
    · rw [observeRun_succ_of_next hs, hlater, hnow, List.append_assoc]
    · rw [List.length_append, hlater_length, hnow_length]

/-- Settles O33: each step of a safe run gives what is then no longer asked for, and at its end nothing is. -/
theorem safeRunsAnswerEveryCommandOnce : Obligations.SafeRunsAnswerEveryCommandOnce :=
  fun _ => observeRun_responses_of_safeRun rfl

end Sys2Proof.Machine
end

