-- ==== Sys2Proof/Proofs/Disturbance.lean ====
section
/-! PROOF. What becomes of a difference between two engines: it adds linearly (R88), leaves a descrambler after seven bits and stays in
a scrambler (R177), and at start-up is seen in the first byte alone (R176). -/

namespace Sys2Proof.Machine

/-- Settles O45: the run on a sum is the sum of the runs. -/
theorem engineIsLinear : Obligations.EngineIsLinear :=
  fun m _ _ r r' h => engineRun_xor m r r' h

/-! ### Two engines fed the same bits -/

/-- Past seven bits, which bring them together, two descramblers give the same outputs (R177). -/
theorem engineRun_descramble_drop_seven (r₁ r₂ : Reg) (xs : List Bool) :
    (engineRun .descramble r₁ xs).2.drop 7 = (engineRun .descramble r₂ xs).2.drop 7 := by
  rw [← engineRun_drop, ← engineRun_drop]
  rcases Nat.le_total 7 xs.length with h | h
  · rw [descramblers_meet r₁ r₂ (List.length_take_of_le h)]
  · rw [List.drop_eq_nil_of_le h, engineRun_nil, engineRun_nil]

/-- Seven consecutive outputs of a scrambler are its register after them, and so determine the register before the run (R89, R93). -/
theorem eq_of_engineRun_scramble_window {r₁ r₂ : Reg} {xs : List Bool} {t : Nat} (ht : t + 7 ≤ xs.length)
    (h : ((engineRun .scramble r₁ xs).2.drop t).take 7 = ((engineRun .scramble r₂ xs).2.drop t).take 7) : r₁ = r₂ := by
  have same_output {k : Nat} (hk : k < 7) :
      (engineRun .scramble r₁ xs).2[t + k]? = (engineRun .scramble r₂ xs).2[t + k]? := by
    have at_k := congrArg (·[k]?) h
    simpa only [List.getElem?_take_of_lt hk, List.getElem?_drop] using at_k
  refine engineRun_scramble_fst_injective (xs.take (t + 7)) (BitVec.eq_of_getLsbD_eq fun j hj => Option.some.inj ?_)
  rw [← engineRun_scramble_getElem?_eq_getLsbD r₁ ht hj, ← engineRun_scramble_getElem?_eq_getLsbD r₂ ht hj]
  exact same_output (by omega)

/-- Settles O43: a descrambler forgets its register in seven bits; a scrambler's outputs tell it. -/
theorem disturbanceEndsInDescrambleOnly : Obligations.DisturbanceEndsInDescrambleOnly :=
  ⟨engineRun_descramble_drop_seven, fun _ _ _ _ ht => ⟨eq_of_engineRun_scramble_window ht, fun h => by rw [h]⟩⟩

/-! ### The first byte -/

section FirstByte
variable (seedS seedD : Reg) (b : Byte)

/-- What a descrambler of another seed makes of a scrambler's first byte (R176). -/
def firstByteOut : Byte := (adapterByte .msbFirst .descramble seedD (adapterByte .msbFirst .scramble seedS b).2).2

/-- After the first byte the two registers are equal: both hold its scrambled bits (R109). -/
theorem adapterByte_descramble_fst :
    (adapterByte .msbFirst .descramble seedD (adapterByte .msbFirst .scramble seedS b).2).1 =
      (adapterByte .msbFirst .scramble seedS b).1 := by
  rw [adapterByte_msbFirst_fst_eq_extractLsb', adapterByte_msbFirst_fst_eq_extractLsb', if_pos rfl, if_neg (by decide)]

/-- Every byte after the first comes back as it was (R92, R176). -/
theorem adapterRun_descramble_scramble_cons (bs : List Byte) :
    (adapterRun .msbFirst .descramble seedD (adapterRun .msbFirst .scramble seedS (b :: bs)).2).2 =
      firstByteOut seedS seedD b :: bs := by
  rw [adapterRun_cons, adapterRun_cons, adapterByte_descramble_fst, adapterRun_descramble_scramble, firstByteOut]

/-- Bit `i` of the first byte passes at bit step `7-i`, and errs by the feedback of what is then left of the seeds' difference (R90,
R176). -/
theorem firstByteOut_getLsbD {i : Nat} (hi : i < 8) :
    (firstByteOut seedS seedD b).getLsbD i = (b.getLsbD i ^^ feedback ((seedS ^^^ seedD) <<< (7 - i))) := by
  have hidx : 7 - (7 - i) = i := by omega
  have passes := bitsMsbFirst_getElem? b (k := 7 - i) (by omega)
  have comes_out := bitsMsbFirst_getElem? (firstByteOut seedS seedD b) (k := 7 - i) (by omega)
  rw [hidx] at passes comes_out
  refine Option.some.inj (comes_out.symm.trans ?_)
  rw [firstByteOut, bitsMsbFirst_adapterByte, bitsMsbFirst_adapterByte, descrambler_output seedD passes]

end FirstByte

/-- Settles O56: the error of bit `i` is the feedback of the seeds' difference moved up by `7-i`, which at `i = 0` is nothing. -/
theorem startupTransientIsInTheFirstByte : Obligations.StartupTransientIsInTheFirstByte := by
  intro seedS seedD b bs
  refine ⟨firstByteOut seedS seedD b, adapterRun_descramble_scramble_cons seedS seedD b bs, ?_, fun i hi1 hi7 => ?_⟩
  · rw [firstByteOut_getLsbD seedS seedD b (by omega), BitVec.shiftLeft_eq_zero (Nat.le_refl 7)]
    exact Bool.xor_false _
  · have error : ((firstByteOut seedS seedD b).getLsbD i ^^ b.getLsbD i) = feedback ((seedS ^^^ seedD) <<< (7 - i)) := by
      rw [firstByteOut_getLsbD seedS seedD b (by omega), Bool.xor_comm (b.getLsbD i), Bool.xor_assoc, Bool.xor_self,
        Bool.xor_false]
    have hcond : 7 - i ≤ 3 ↔ 4 ≤ i := by omega
    have hlow : 3 - (7 - i) = i - 4 := by omega
    have hhigh : 6 - (7 - i) = i - 1 := by omega
    rw [error, feedback_shiftLeft _ (by omega), hlow, hhigh]
    simp only [hcond]

end Sys2Proof.Machine
end
